-- ==== Sys2Proof/Word.lean ====
section
/-! DEFINITION. The machine word, the byte and the two fields of an instruction that are numbers (R4, R6, R71). -/

namespace Sys2Proof

/-- A machine word: an unsigned 32-bit value (R4 `XLEN`, R6). -/
abbrev Word := BitVec 32

/-- A byte of memory (R21). -/
abbrev Byte := BitVec 8

/-- A register field of an instruction word, `0 .. 15` (R71). -/
abbrev RegIndex := BitVec 4

/-- The immediate field of an instruction word, `0 .. 65535` (R71, R73). -/
abbrev Imm := BitVec 16

end Sys2Proof
end

