-- ==== Sys2Proof/Config.lean ====
section
/-! DEFINITION. The parameters of the hardware (R4): the opcode map, the region sizes, the unknown-opcode policy.
`NREG` is the length of the register file (Machine/State.lean). Parameters are fixed at construction; no step changes them. -/

namespace Sys2Proof

/-- The 22 rows of the dispatch table (R75), in its order. -/
inductive Mnemonic where
  | moveRegister
  | moveImmediate
  | addRegister
  | addImmediate
  | subRegister
  | subImmediate
  | andRegister
  | andImmediate
  | orRegister
  | orImmediate
  | shiftRightImmediate
  | shiftLeftImmediate
  | compare
  | jump
  | jumpIfZero
  | jumpIfNotZero
  | loadRegisterIndirect
  | loadImmediateAddress
  | storeRegisterIndirect
  | storeImmediateAddress
  | halt
  | noOp
deriving DecidableEq, Repr

/-- All mnemonics, in the order of the dispatch table (R75). -/
def Mnemonic.all : List Mnemonic :=
  [.moveRegister, .moveImmediate, .addRegister, .addImmediate,
   .subRegister, .subImmediate, .andRegister, .andImmediate,
   .orRegister, .orImmediate, .shiftRightImmediate, .shiftLeftImmediate,
   .compare, .jump, .jumpIfZero, .jumpIfNotZero,
   .loadRegisterIndirect, .loadImmediateAddress, .storeRegisterIndirect, .storeImmediateAddress,
   .halt, .noOp]

/-- `OPMAP` (R4, R75): the 8-bit opcode value of each mnemonic. The values are a parameter (D1). -/
structure OpMap where
  moveRegister : Byte
  moveImmediate : Byte
  addRegister : Byte
  addImmediate : Byte
  subRegister : Byte
  subImmediate : Byte
  andRegister : Byte
  andImmediate : Byte
  orRegister : Byte
  orImmediate : Byte
  shiftRightImmediate : Byte
  shiftLeftImmediate : Byte
  compare : Byte
  jump : Byte
  jumpIfZero : Byte
  jumpIfNotZero : Byte
  loadRegisterIndirect : Byte
  loadImmediateAddress : Byte
  storeRegisterIndirect : Byte
  storeImmediateAddress : Byte
  halt : Byte
  noOp : Byte
deriving DecidableEq, Repr

/-- `OPMAP(m)` (R75). -/
def OpMap.opcodeOf (om : OpMap) : Mnemonic → Byte
  | .moveRegister => om.moveRegister
  | .moveImmediate => om.moveImmediate
  | .addRegister => om.addRegister
  | .addImmediate => om.addImmediate
  | .subRegister => om.subRegister
  | .subImmediate => om.subImmediate
  | .andRegister => om.andRegister
  | .andImmediate => om.andImmediate
  | .orRegister => om.orRegister
  | .orImmediate => om.orImmediate
  | .shiftRightImmediate => om.shiftRightImmediate
  | .shiftLeftImmediate => om.shiftLeftImmediate
  | .compare => om.compare
  | .jump => om.jump
  | .jumpIfZero => om.jumpIfZero
  | .jumpIfNotZero => om.jumpIfNotZero
  | .loadRegisterIndirect => om.loadRegisterIndirect
  | .loadImmediateAddress => om.loadImmediateAddress
  | .storeRegisterIndirect => om.storeRegisterIndirect
  | .storeImmediateAddress => om.storeImmediateAddress
  | .halt => om.halt
  | .noOp => om.noOp

/-- `UNKNOWN_OPCODE_POLICY` (R4, R78). -/
inductive UnknownOpcodePolicy where
  | fault
  | hang
deriving DecidableEq, Repr

/-- The parameters of the memory controller and of the fetch/decode unit (R4). -/
structure Config where
  /-- `ROM_SIZE`, the document's `romEnd`. -/
  romSize : Nat
  /-- `RAM_SIZE`, the document's `ramSize`. -/
  ramSize : Nat
  /-- `OPMAP`. -/
  opmap : OpMap
  /-- `UNKNOWN_OPCODE_POLICY`. -/
  unknownOpcode : UnknownOpcodePolicy
deriving DecidableEq, Repr

/-- `TOTAL_SIZE = ROM_SIZE + RAM_SIZE`, an unbounded sum (R4, R45). -/
def Config.totalSize (c : Config) : Nat := c.romSize + c.ramSize

end Sys2Proof
end

