-- ==== Sys2Proof/Syntax.lean ====
section
/-! DEFINITION. The instruction set: one constructor per row of spec/opcode_table.json (R75), each with exactly the fields
the instruction uses (R76). Ignored fields (R77) are dropped by the decoder and encoded as 0. -/

namespace Sys2Proof

/-- An instruction with its used operands. `a` is `regA`, `b` is `regB`, `imm` is `immediate` (R71). -/
inductive Instr where
  /-- `move-register`: regA := regB (R100). -/
  | moveRegister (a b : RegIndex)
  /-- `move-immediate`: regA := immediate (R101). -/
  | moveImmediate (a : RegIndex) (imm : Imm)
  /-- `add-register`: regA += regB (R110). -/
  | addRegister (a b : RegIndex)
  /-- `add-immediate`: regA += immediate (R111). -/
  | addImmediate (a : RegIndex) (imm : Imm)
  /-- `sub-register`: regA -= regB (R112). -/
  | subRegister (a b : RegIndex)
  /-- `sub-immediate`: regA -= immediate (R113). -/
  | subImmediate (a : RegIndex) (imm : Imm)
  /-- `and-register`: regA &= regB (R120). -/
  | andRegister (a b : RegIndex)
  /-- `and-immediate`: regA &= immediate (R121). -/
  | andImmediate (a : RegIndex) (imm : Imm)
  /-- `or-register`: regA |= regB (R122). -/
  | orRegister (a b : RegIndex)
  /-- `or-immediate`: regA |= immediate (R123). -/
  | orImmediate (a : RegIndex) (imm : Imm)
  /-- `shift-right-immediate`: regA >>= immediate (R124). -/
  | shiftRightImmediate (a : RegIndex) (imm : Imm)
  /-- `shift-left-immediate`: regA <<= immediate (R125). -/
  | shiftLeftImmediate (a : RegIndex) (imm : Imm)
  /-- `compare`: ZF := (regA == regB) (R130). -/
  | compare (a b : RegIndex)
  /-- `jump`: PC := immediate (absolute byte address) (R131). -/
  | jump (imm : Imm)
  /-- `jump-if-zero`: PC := immediate if ZF else +4 (R132). -/
  | jumpIfZero (imm : Imm)
  /-- `jump-if-not-zero`: PC := immediate if !ZF else +4 (R133). -/
  | jumpIfNotZero (imm : Imm)
  /-- `load-register-indirect`: regA := memory.read32(regB) (R140). -/
  | loadRegisterIndirect (a b : RegIndex)
  /-- `load-immediate-address`: regA := memory.read32(immediate) (R141). -/
  | loadImmediateAddress (a : RegIndex) (imm : Imm)
  /-- `store-register-indirect`: memory.write32(regB, regA) (R142). -/
  | storeRegisterIndirect (a b : RegIndex)
  /-- `store-immediate-address`: memory.write32(immediate, regA) (R143). -/
  | storeImmediateAddress (a : RegIndex) (imm : Imm)
  /-- `halt`: Halted := true (R150). -/
  | halt
  /-- `no-op`: (no effect) (R151). -/
  | noOp
deriving DecidableEq, Repr

/-- The row of the dispatch table an instruction belongs to (R75). -/
def Instr.mnemonic : Instr → Mnemonic
  | .moveRegister _ _ => .moveRegister
  | .moveImmediate _ _ => .moveImmediate
  | .addRegister _ _ => .addRegister
  | .addImmediate _ _ => .addImmediate
  | .subRegister _ _ => .subRegister
  | .subImmediate _ _ => .subImmediate
  | .andRegister _ _ => .andRegister
  | .andImmediate _ _ => .andImmediate
  | .orRegister _ _ => .orRegister
  | .orImmediate _ _ => .orImmediate
  | .shiftRightImmediate _ _ => .shiftRightImmediate
  | .shiftLeftImmediate _ _ => .shiftLeftImmediate
  | .compare _ _ => .compare
  | .jump _ => .jump
  | .jumpIfZero _ => .jumpIfZero
  | .jumpIfNotZero _ => .jumpIfNotZero
  | .loadRegisterIndirect _ _ => .loadRegisterIndirect
  | .loadImmediateAddress _ _ => .loadImmediateAddress
  | .storeRegisterIndirect _ _ => .storeRegisterIndirect
  | .storeImmediateAddress _ _ => .storeImmediateAddress
  | .halt => .halt
  | .noOp => .noOp

/-- The `regA` field, when the instruction uses it (R76). -/
def Instr.fieldA : Instr → Option RegIndex
  | .moveRegister a _ => some a
  | .moveImmediate a _ => some a
  | .addRegister a _ => some a
  | .addImmediate a _ => some a
  | .subRegister a _ => some a
  | .subImmediate a _ => some a
  | .andRegister a _ => some a
  | .andImmediate a _ => some a
  | .orRegister a _ => some a
  | .orImmediate a _ => some a
  | .shiftRightImmediate a _ => some a
  | .shiftLeftImmediate a _ => some a
  | .compare a _ => some a
  | .jump _ => none
  | .jumpIfZero _ => none
  | .jumpIfNotZero _ => none
  | .loadRegisterIndirect a _ => some a
  | .loadImmediateAddress a _ => some a
  | .storeRegisterIndirect a _ => some a
  | .storeImmediateAddress a _ => some a
  | .halt => none
  | .noOp => none

/-- The `regB` field, when the instruction uses it (R76). -/
def Instr.fieldB : Instr → Option RegIndex
  | .moveRegister _ b => some b
  | .moveImmediate _ _ => none
  | .addRegister _ b => some b
  | .addImmediate _ _ => none
  | .subRegister _ b => some b
  | .subImmediate _ _ => none
  | .andRegister _ b => some b
  | .andImmediate _ _ => none
  | .orRegister _ b => some b
  | .orImmediate _ _ => none
  | .shiftRightImmediate _ _ => none
  | .shiftLeftImmediate _ _ => none
  | .compare _ b => some b
  | .jump _ => none
  | .jumpIfZero _ => none
  | .jumpIfNotZero _ => none
  | .loadRegisterIndirect _ b => some b
  | .loadImmediateAddress _ _ => none
  | .storeRegisterIndirect _ b => some b
  | .storeImmediateAddress _ _ => none
  | .halt => none
  | .noOp => none

/-- The `immediate` field, when the instruction uses it (R76). -/
def Instr.fieldImm : Instr → Option Imm
  | .moveRegister _ _ => none
  | .moveImmediate _ imm => some imm
  | .addRegister _ _ => none
  | .addImmediate _ imm => some imm
  | .subRegister _ _ => none
  | .subImmediate _ imm => some imm
  | .andRegister _ _ => none
  | .andImmediate _ imm => some imm
  | .orRegister _ _ => none
  | .orImmediate _ imm => some imm
  | .shiftRightImmediate _ imm => some imm
  | .shiftLeftImmediate _ imm => some imm
  | .compare _ _ => none
  | .jump imm => some imm
  | .jumpIfZero imm => some imm
  | .jumpIfNotZero imm => some imm
  | .loadRegisterIndirect _ _ => none
  | .loadImmediateAddress _ imm => some imm
  | .storeRegisterIndirect _ _ => none
  | .storeImmediateAddress _ imm => some imm
  | .halt => none
  | .noOp => none

/-- The register an instruction writes: column "writes `x[A]`" of R76. -/
def Instr.destination : Instr → Option RegIndex
  | .moveRegister a _ => some a
  | .moveImmediate a _ => some a
  | .addRegister a _ => some a
  | .addImmediate a _ => some a
  | .subRegister a _ => some a
  | .subImmediate a _ => some a
  | .andRegister a _ => some a
  | .andImmediate a _ => some a
  | .orRegister a _ => some a
  | .orImmediate a _ => some a
  | .shiftRightImmediate a _ => some a
  | .shiftLeftImmediate a _ => some a
  | .compare _ _ => none
  | .jump _ => none
  | .jumpIfZero _ => none
  | .jumpIfNotZero _ => none
  | .loadRegisterIndirect a _ => some a
  | .loadImmediateAddress a _ => some a
  | .storeRegisterIndirect _ _ => none
  | .storeImmediateAddress _ _ => none
  | .halt => none
  | .noOp => none

end Sys2Proof
end

