-- ==== Sys2Proof/WellFormed.lean ====
section
/-! DEFINITION. Well-formed instructions (R79) and well-formed parameters (R4, R75). -/

namespace Sys2Proof

/-- The registers an instruction accesses: the used register fields of R76. -/
def Instr.usedRegs (i : Instr) : List RegIndex := i.fieldA.toList ++ i.fieldB.toList

/-- A recognized instruction is legal when every used register field holds an index below `NREG` (R79). -/
def Instr.wf (nreg : Nat) (i : Instr) : Bool := i.usedRegs.all (fun r => decide (r.toNat < nreg))

/-- `OPMAP` must be injective: two mnemonics never share an opcode value (R75). -/
abbrev OpMap.wf (om : OpMap) : Prop := (Mnemonic.all.map om.opcodeOf).Nodup

/-- The constraints R4 puts on the parameters: `OPMAP` injective and `TOTAL_SIZE <= 2^32`. -/
abbrev Config.wf (c : Config) : Prop := c.opmap.wf ∧ c.totalSize ≤ 2 ^ 32

end Sys2Proof
end

