-- ==== Sys2Proof/Decode.lean ====
section
/-! DEFINITION. The instruction decoder (R71, R72, R75, R77) and, after it, the encoder (R72, R81). -/

namespace Sys2Proof

/-- The default `OPMAP`: the position in the dispatch table, counted from `0x00` (R75, D1: UNVERIFIED, log 1). -/
def OpMap.default : OpMap where
  moveRegister := 0x00
  moveImmediate := 0x01
  addRegister := 0x02
  addImmediate := 0x03
  subRegister := 0x04
  subImmediate := 0x05
  andRegister := 0x06
  andImmediate := 0x07
  orRegister := 0x08
  orImmediate := 0x09
  shiftRightImmediate := 0x0A
  shiftLeftImmediate := 0x0B
  compare := 0x0C
  jump := 0x0D
  jumpIfZero := 0x0E
  jumpIfNotZero := 0x0F
  loadRegisterIndirect := 0x10
  loadImmediateAddress := 0x11
  storeRegisterIndirect := 0x12
  storeImmediateAddress := 0x13
  halt := 0x14
  noOp := 0x15

/-! ### Words and bytes -/

/-- `v[8k+7 : 8k]`: byte `k` of a word, byte 0 least significant (R41). -/
def Word.byte (v : Word) (k : Nat) : Byte := v.extractLsb' (8 * k) 8

/-- The word whose little-endian bytes are `b0 b1 b2 b3` (R41). -/
def wordOfBytes (b0 b1 b2 b3 : Byte) : Word := b3 ++ b2 ++ b1 ++ b0

/-- The four bytes of a word, lowest address first (R41). -/
def bytesOfWord (v : Word) : List Byte := [Word.byte v 0, Word.byte v 1, Word.byte v 2, Word.byte v 3]

/-! ### Fields -/

/-- The four fields of an instruction word (R71). -/
structure Fields where
  opcode : Byte
  regA : RegIndex
  regB : RegIndex
  imm : Imm
deriving DecidableEq, Repr

/-- `decode(word)` of R72: total, cannot fail. -/
def decodeFields (w : Word) : Fields where
  opcode := w.extractLsb' 24 8
  regA := w.extractLsb' 20 4
  regB := w.extractLsb' 16 4
  imm := w.extractLsb' 0 16

/-- `encode(opcode, A, B, IMM)` of R72. -/
def encodeFields (f : Fields) : Word := f.opcode ++ f.regA ++ f.regB ++ f.imm

/-! ### Selection -/

/-- Why a decoding is refused. -/
inductive DecodeError where
  /-- The opcode is `OPMAP(m)` for no mnemonic `m` (R78). -/
  | unrecognizedOpcode (opcode : Byte)
  /-- Fewer than the four bytes of an instruction (R70) were given. -/
  | truncated
deriving DecidableEq, Repr

/-- Stage S4 (R22): the mnemonic `m` with `OPMAP(m) = opcode`. -/
def selectMnemonic (om : OpMap) (opcode : Byte) : Option Mnemonic :=
  Mnemonic.all.find? (fun m => om.opcodeOf m == opcode)

/-- The instruction of a mnemonic with its used fields; the ignored ones are dropped (R76, R77). -/
def instrOf (f : Fields) : Mnemonic → Instr
  | .moveRegister => .moveRegister f.regA f.regB
  | .moveImmediate => .moveImmediate f.regA f.imm
  | .addRegister => .addRegister f.regA f.regB
  | .addImmediate => .addImmediate f.regA f.imm
  | .subRegister => .subRegister f.regA f.regB
  | .subImmediate => .subImmediate f.regA f.imm
  | .andRegister => .andRegister f.regA f.regB
  | .andImmediate => .andImmediate f.regA f.imm
  | .orRegister => .orRegister f.regA f.regB
  | .orImmediate => .orImmediate f.regA f.imm
  | .shiftRightImmediate => .shiftRightImmediate f.regA f.imm
  | .shiftLeftImmediate => .shiftLeftImmediate f.regA f.imm
  | .compare => .compare f.regA f.regB
  | .jump => .jump f.imm
  | .jumpIfZero => .jumpIfZero f.imm
  | .jumpIfNotZero => .jumpIfNotZero f.imm
  | .loadRegisterIndirect => .loadRegisterIndirect f.regA f.regB
  | .loadImmediateAddress => .loadImmediateAddress f.regA f.imm
  | .storeRegisterIndirect => .storeRegisterIndirect f.regA f.regB
  | .storeImmediateAddress => .storeImmediateAddress f.regA f.imm
  | .halt => .halt
  | .noOp => .noOp

/-- Stages S3 and S4 on one word (R22, R72, R75). -/
def decodeWord (om : OpMap) (w : Word) : Except DecodeError Instr :=
  match selectMnemonic om (decodeFields w).opcode with
  | some m => .ok (instrOf (decodeFields w) m)
  | none => .error (.unrecognizedOpcode (decodeFields w).opcode)

/-- Decode the first instruction of a byte sequence: one word, little-endian, and the rest (R70, R40). -/
def decode (om : OpMap) : List Byte → Except DecodeError (Instr × List Byte)
  | b0 :: b1 :: b2 :: b3 :: rest =>
    match decodeWord om (wordOfBytes b0 b1 b2 b3) with
    | .ok i => .ok (i, rest)
    | .error e => .error e
  | _ => .error .truncated

/-! ### The encoder -/

/-- The canonical encoding: the used fields in place, 0 in every ignored field (R72, R75, R77, R81). -/
def encode (om : OpMap) : Instr → Word
  | .moveRegister a b => encodeFields ⟨om.moveRegister, a, b, 0⟩
  | .moveImmediate a imm => encodeFields ⟨om.moveImmediate, a, 0, imm⟩
  | .addRegister a b => encodeFields ⟨om.addRegister, a, b, 0⟩
  | .addImmediate a imm => encodeFields ⟨om.addImmediate, a, 0, imm⟩
  | .subRegister a b => encodeFields ⟨om.subRegister, a, b, 0⟩
  | .subImmediate a imm => encodeFields ⟨om.subImmediate, a, 0, imm⟩
  | .andRegister a b => encodeFields ⟨om.andRegister, a, b, 0⟩
  | .andImmediate a imm => encodeFields ⟨om.andImmediate, a, 0, imm⟩
  | .orRegister a b => encodeFields ⟨om.orRegister, a, b, 0⟩
  | .orImmediate a imm => encodeFields ⟨om.orImmediate, a, 0, imm⟩
  | .shiftRightImmediate a imm => encodeFields ⟨om.shiftRightImmediate, a, 0, imm⟩
  | .shiftLeftImmediate a imm => encodeFields ⟨om.shiftLeftImmediate, a, 0, imm⟩
  | .compare a b => encodeFields ⟨om.compare, a, b, 0⟩
  | .jump imm => encodeFields ⟨om.jump, 0, 0, imm⟩
  | .jumpIfZero imm => encodeFields ⟨om.jumpIfZero, 0, 0, imm⟩
  | .jumpIfNotZero imm => encodeFields ⟨om.jumpIfNotZero, 0, 0, imm⟩
  | .loadRegisterIndirect a b => encodeFields ⟨om.loadRegisterIndirect, a, b, 0⟩
  | .loadImmediateAddress a imm => encodeFields ⟨om.loadImmediateAddress, a, 0, imm⟩
  | .storeRegisterIndirect a b => encodeFields ⟨om.storeRegisterIndirect, a, b, 0⟩
  | .storeImmediateAddress a imm => encodeFields ⟨om.storeImmediateAddress, a, 0, imm⟩
  | .halt => encodeFields ⟨om.halt, 0, 0, 0⟩
  | .noOp => encodeFields ⟨om.noOp, 0, 0, 0⟩

/-- The encoding as it lies in memory, lowest address first (R70, R71). -/
def encodeBytes (om : OpMap) (i : Instr) : List Byte := bytesOfWord (encode om i)

/-! ### The table's numbering of bits -/

/-- The instruction word of the low `nbits` bits of `w`, every bit above them 0. -/
def tableWord (nbits w : Nat) : Word := BitVec.ofNat 32 (w % 2 ^ nbits)

/-- What the decoder reads, under the default `OPMAP`, from the bytes of a word numbered as spec/opcode_table.json
numbers it: bit 0 is the least significant bit of the one little-endian word. -/
def decodeTableWord (nbits w : Nat) : Option Instr :=
  match decode OpMap.default (bytesOfWord (tableWord nbits w)) with
  | .ok (i, _) => some i
  | .error _ => none

end Sys2Proof
end

