-- ==== Sys2Proof/Machine/State.lean ====
section
/-! DEFINITION. The architectural state (10_state.md), the fatal errors (R160), what a step or a construction may answer
besides a next state, and the state right after reset (R190). -/

namespace Sys2Proof.Machine

/-- The fatal errors of R160: the values of the `FAULT` latch other than `None`. -/
inductive FatalError where
  /-- Code 1. Raised by a fetch (S2) or a data access (S6) outside both regions, or a straddling read. -/
  | outOfBounds
  /-- Code 2. Raised by a store whose first byte is in the read-only region (S6). -/
  | readOnlyViolation
  /-- Code 3. Raised by construction only, never by a step; no state holds it (R168). -/
  | invalidImageSize
  /-- Code 4. Raised when a used register field holds an index `>= NREG` (S5). -/
  | invalidRegisterIndex
  /-- Code 5. Raised on an unrecognized opcode under the policy `fault` (S4). -/
  | invalidOpcode
  /-- Code 6. Raised by the fetch when `pc` is not a multiple of 4 (S1). -/
  | misalignedFetch
deriving DecidableEq, Repr

/-- Memory: (address, byte) pairs, addresses rising, no byte equal to the unlisted one (see `Memory.wf`). -/
abbrev Memory := List Host.Cell

/-- The state of the machine (10_state.md). `cfg` holds the parameters of R4, which no step changes
(DESIGN CHOICE, log 23). -/
structure State where
  /-- The parameters fixed at construction (R4). -/
  cfg : Config
  /-- The register file `x[0 .. NREG-1]` (R10); `NREG` is its length. -/
  regs : List Word
  /-- The program counter (R14). -/
  pc : Word
  /-- The Zero flag `ZF` (R16). -/
  zf : Bool
  /-- The Halted flag `HALTED` (R17): `Running` when false. -/
  halted : Bool
  /-- The fault latch `FAULT` (R18): `none`, or the one fatal error of the run. -/
  fault : Option FatalError
  /-- ROM and RAM, one address space (R21). -/
  mem : Memory
deriving DecidableEq, Repr

/-- `NREG`, the size of the register file, fixed at construction (R10, R12). -/
def State.nreg (s : State) : Nat := s.regs.length

/-- What stops the machine from existing. No step raises one: a fatal error of a run is a NEXT state with `HALTED` and
`FAULT` set, as R166 describes it. -/
inductive Fault where
  /-- Raised by `construct` when the image's length differs from `ROM_SIZE` (R168, R191). Safe: no machine exists. -/
  | invalidImageSize
deriving DecidableEq, Repr

/-- Why the model gives no meaning. No step of this model is refused. -/
inductive Refusal where
  /-- An instruction whose arm has no meaning yet. Raised by no arm of this model. Safe: nothing is proved of it. -/
  | notModelled (mnemonic : String)
deriving DecidableEq, Repr

/-- The parameters of `State.reset`: configuration `T` of R4, the default `OPMAP` (R75) and the policy `fault` (R78).
DESIGN CHOICE (log 23): R4 leaves the sizes open. -/
def Config.reset : Config where
  romSize := 256
  ramSize := 256
  opmap := OpMap.default
  unknownOpcode := .fault

/-- The machine right after reset (R190), `NREG = 4` (R4), no byte of memory listed: RAM is zero (R190) and the image is
the image of zeros (DESIGN CHOICE, log 23: R4 leaves `ROM_IMAGE` open). -/
def State.reset : State where
  cfg := Config.reset
  regs := [0, 0, 0, 0]
  pc := 0
  zf := false
  halted := false
  fault := none
  mem := []

end Sys2Proof.Machine
end

