-- ==== Sys2Proof/Machine/Ops.lean ====
section
/-! DEFINITION. The operations every instruction is made of: memory (20_memory.md), the register file (R12), the updates of
the state, the fatal-error sequence (R166), the fetch (R22 S1, S2) and construction (R190 to R192). -/

namespace Sys2Proof.Machine

/-! ### Bytes of memory -/

/-- What an address that is not listed reads as: RAM is zeroed at construction (R21, R190; log 26). -/
def Memory.unlisted : Byte := 0

/-- The byte listed for an address, else the unlisted byte. -/
def Memory.read : Memory → Nat → Byte
  | [], _ => Memory.unlisted
  | (k, b) :: m, a => if k = a then b else Memory.read m a

/-- Drop whatever is listed for an address. -/
def Memory.erase (m : Memory) (a : Nat) : Memory := m.filter (fun c => c.1 != a)

/-- Put an entry before the first one with a higher address. -/
def Memory.insert : Memory → Nat → Byte → Memory
  | [], a, b => [(a, b)]
  | (k, c) :: m, a, b => if a < k then (a, b) :: (k, c) :: m else (k, c) :: Memory.insert m a b

/-- Write one byte; writing the unlisted byte removes the entry. -/
def Memory.write (m : Memory) (a : Nat) (b : Byte) : Memory :=
  if b = Memory.unlisted then Memory.erase m a else Memory.insert (Memory.erase m a) a b

/-- The canonical form: addresses strictly rising, no entry equal to the unlisted byte. -/
abbrev Memory.wf (m : Memory) : Prop :=
  m.Pairwise (fun c d => c.1 < d.1) ∧ ∀ c ∈ m, c.2 ≠ Memory.unlisted

/-- The word at an address, little-endian (R41). -/
def Memory.readWord (m : Memory) (a : Nat) : Word :=
  wordOfBytes (Memory.read m a) (Memory.read m (a + 1)) (Memory.read m (a + 2)) (Memory.read m (a + 3))

/-- Store a word at an address, little-endian (R41). -/
def Memory.writeWord (m : Memory) (a : Nat) (v : Word) : Memory :=
  Memory.write (Memory.write (Memory.write (Memory.write m a (Word.byte v 0))
    (a + 1) (Word.byte v 1)) (a + 2) (Word.byte v 2)) (a + 3) (Word.byte v 3)

/-- The bytes of an image placed from an address on, in canonical form (R190 `ROM`). -/
def Memory.ofImage : List Byte → Nat → Memory
  | [], _ => []
  | b :: bs, a =>
    if b = Memory.unlisted then Memory.ofImage bs (a + 1) else (a, b) :: Memory.ofImage bs (a + 1)

/-! ### Regions -/

/-- The classes of R44. -/
inductive Region where
  | outside
  | rom
  | ram
  | straddle
deriving DecidableEq, Repr

/-- `Region(a)` of R44, in its order; the sums do not wrap (R45). With `ROM_SIZE = 0` and `RAM_SIZE ≥ 4` it routes address 0 to
`Ram`; that the first fetch of such a machine faults all the same is R192's, in `fetch` (log 28). -/
def region (c : Config) (a : Nat) : Region :=
  if a + 3 ≥ c.totalSize then .outside
  else if a + 3 < c.romSize then .rom
  else if a ≥ c.romSize then .ram
  else .straddle

/-! ### Updates of the state, one field each -/

/-- `pc <- target`. -/
def State.setPc (s : State) (target : Word) : State := { s with pc := target }

/-- `ZF <- z`. -/
def State.setZf (s : State) (z : Bool) : State := { s with zf := z }

/-- `x[i] <- v` for an existing register. -/
def State.setReg (s : State) (i : RegIndex) (v : Word) : State := { s with regs := s.regs.set i.toNat v }

/-- Replace the memory. -/
def State.setMem (s : State) (m : Memory) : State := { s with mem := m }

/-- `HALTED <- 1`. -/
def State.setHalted (s : State) : State := { s with halted := true }

/-- The same machine with another `OPMAP` (R75). -/
def State.setOpmap (s : State) (om : OpMap) : State := { s with cfg := { s.cfg with opmap := om } }

/-- `pc <- (pc + 4) mod 2^32` (R15). -/
def State.advance (s : State) : State := s.setPc (s.pc + 4)

/-! ### What can be read of a state -/

/-- The content of register `i`; 0 where there is no such register. -/
def State.reg (s : State) (i : RegIndex) : Word := s.regs.getD i.toNat 0

/-- `byte(a)` of R41. -/
def State.byteAt (s : State) (a : Nat) : Byte := Memory.read s.mem a

/-! ### Fatal errors -/

/-- The state the fatal-error sequence leaves: `HALTED <- 1; FAULT <- f`, nothing else (R166, R161). -/
def State.failed (s : State) (f : FatalError) : State := { s with halted := true, fault := some f }

/-- `raise f` (R166): taken, as a next state; there is no handler and no return from it (R167). -/
def raise (f : FatalError) (s : State) : Host.Outcome State Fault Refusal := .next (s.failed f)

/-- End a step that began in `s`: the computed state, or the fatal-error sequence on `s` itself, so that a fault finds
nothing changed (R22, R166). -/
def finish (s : State) : Except FatalError State → Host.Outcome State Fault Refusal
  | .ok t => .next t
  | .error f => raise f s

/-- The numeric code of the `FAULT` latch (R160, D10). -/
def faultCode : Option FatalError → Nat
  | none => 0
  | some .outOfBounds => 1
  | some .readOnlyViolation => 2
  | some .invalidImageSize => 3
  | some .invalidRegisterIndex => 4
  | some .invalidOpcode => 5
  | some .misalignedFetch => 6

/-! ### The register file -/

/-- `get(i)` (R12). -/
def regGet (s : State) (i : RegIndex) : Except FatalError Word :=
  if i.toNat < s.nreg then .ok (s.reg i) else .error .invalidRegisterIndex

/-- `set(i, value)` (R12). -/
def regSet (s : State) (i : RegIndex) (v : Word) : Except FatalError State :=
  if i.toNat < s.nreg then .ok (s.setReg i v) else .error .invalidRegisterIndex

/-- Stage S5 (R22): every used register field names a register (R79). -/
def checkRegs (s : State) (used : List RegIndex) : Except FatalError Unit :=
  if ∀ r ∈ used, r.toNat < s.nreg then .ok () else .error .invalidRegisterIndex

/-! ### The memory controller -/

/-- `MemRead(a, 4)`, the document's `read32` (R46). -/
def memRead (s : State) (a : Word) : Except FatalError Word :=
  match region s.cfg a.toNat with
  | .outside => .error .outOfBounds
  | .straddle => .error .outOfBounds
  | .rom => .ok (Memory.readWord s.mem a.toNat)
  | .ram => .ok (Memory.readWord s.mem a.toNat)

/-- `MemWrite(a, 4, v)`, the document's `write32` (R47). -/
def memWrite (s : State) (a : Word) (v : Word) : Except FatalError State :=
  match region s.cfg a.toNat with
  | .outside => .error .outOfBounds
  | .rom => .error .readOnlyViolation
  | .straddle => .error .readOnlyViolation
  | .ram => .ok (s.setMem (Memory.writeWord s.mem a.toNat v))

/-! ### Fetch and the unrecognized opcode -/

/-- The machine is at the entry point with no first instruction to fetch: `ROM_SIZE < 4` (R192, R5). A machine with
`ROM_SIZE < 4` is never anywhere else (`State.Inv.entry`), so this is its first step and no other. -/
abbrev State.noFirstInstruction (s : State) : Prop := s.pc = 0 ∧ s.cfg.romSize < 4

/-- Stages S1 and S2 (R22, R42): the alignment check, then the read. Without a first instruction the fetch fails, also where
R44 would read RAM, which only `ROM_SIZE = 0` makes possible: the model follows R192 there (DESIGN CHOICE, log 28), with the
error of a fetch, `OutOfBounds` (DEDUCED, log 28). -/
def fetch (s : State) : Except FatalError Word :=
  if s.pc.extractLsb' 0 2 = 0 then
    if s.noFirstInstruction then .error .outOfBounds else memRead s s.pc
  else .error .misalignedFetch

/-- Stage S4 on an opcode no mnemonic has (R22, R78): `InvalidOpcode`, or nothing at all under the policy `hang`. -/
def unrecognized (s : State) : Host.Outcome State Fault Refusal :=
  match s.cfg.unknownOpcode with
  | .fault => raise .invalidOpcode s
  | .hang => .next s

/-! ### Construction -/

/-- The reset state of R190 for given parameters and image. -/
def State.initial (nreg : Nat) (c : Config) (image : List Byte) : State where
  cfg := c
  regs := List.replicate nreg 0
  pc := 0
  zf := false
  halted := false
  fault := none
  mem := Memory.ofImage image 0

/-- Construction (R190 to R192): the image's length must be `ROM_SIZE`, its contents are not examined. -/
def construct (nreg : Nat) (c : Config) (image : List Byte) : Host.Outcome State Fault Refusal :=
  if image.length = c.romSize then .next (State.initial nreg c image) else .fault .invalidImageSize

end Sys2Proof.Machine
end

