-- ==== Sys2Proof/Machine/Operands.lean ====
section
/-! DEFINITION. Operand forms and addressing modes (R73, R74, R144), and the two shapes of instruction over them. -/

namespace Sys2Proof.Machine

/-- `imm32 = zext_32(IMM)` (R6, R73). -/
def imm32 (n : Imm) : Word := n.setWidth 32

/-- The second operand: `x[B]` or `imm32` (R74). The same two forms give an address (R144). -/
inductive Operand where
  | reg (b : RegIndex)
  | imm (n : Imm)
deriving DecidableEq, Repr

/-- The register fields an operand uses (R76). -/
def Operand.used : Operand → List RegIndex
  | .reg b => [b]
  | .imm _ => []

/-- The value of an operand (R74). -/
def Operand.value (s : State) : Operand → Except FatalError Word
  | .reg b => regGet s b
  | .imm n => .ok (imm32 n)

/-- What an operand stands for in a state: the content of `x[B]`, or `imm32` (R74); as an address, R144. -/
def Operand.word (s : State) : Operand → Word
  | .reg b => s.reg b
  | .imm n => imm32 n

/-- `x[A] <- f x[A] operand; pc <- pc + 4`, both operands read before the write (R76, R110). -/
def updateReg (f : Word → Word → Word) (a : RegIndex) (o : Operand) (s : State) :
    Host.Outcome State Fault Refusal :=
  finish s do
    checkRegs s (a :: o.used)
    let x ← regGet s a
    let y ← o.value s
    let t ← regSet s a (f x y)
    pure t.advance

/-- `x[A] <- operand; pc <- pc + 4` (R76, R100, R101). -/
def assignReg (a : RegIndex) (o : Operand) (s : State) : Host.Outcome State Fault Refusal :=
  finish s do
    checkRegs s (a :: o.used)
    let y ← o.value s
    let t ← regSet s a y
    pure t.advance

/-- `x[A] <- MemRead(operand, 4); pc <- pc + 4` (R140, R141). -/
def loadReg (a : RegIndex) (o : Operand) (s : State) : Host.Outcome State Fault Refusal :=
  finish s do
    checkRegs s (a :: o.used)
    let addr ← o.value s
    let v ← memRead s addr
    let t ← regSet s a v
    pure t.advance

/-- `MemWrite(operand, 4, x[A]); pc <- pc + 4` (R142, R143). -/
def storeReg (a : RegIndex) (o : Operand) (s : State) : Host.Outcome State Fault Refusal :=
  finish s do
    checkRegs s (a :: o.used)
    let addr ← o.value s
    let v ← regGet s a
    let t ← memWrite s addr v
    pure t.advance

end Sys2Proof.Machine
end

