-- ==== Sys2Proof/Machine/Arithmetic.lean ====
section
/-! DEFINITION. Arithmetic modulo 2^32, silent on overflow, no flags (41_arithmetic.md, R114). -/

namespace Sys2Proof.Machine

/-- `add-register`: `x[A] <- (x[A] + x[B]) mod 2^32` (R110). -/
def execAddRegister (a b : RegIndex) (s : State) : Host.Outcome State Fault Refusal :=
  updateReg (fun x y => x + y) a (.reg b) s

/-- `add-immediate`: `x[A] <- (x[A] + zext_32(IMM)) mod 2^32` (R111). -/
def execAddImmediate (a : RegIndex) (imm : Imm) (s : State) : Host.Outcome State Fault Refusal :=
  updateReg (fun x y => x + y) a (.imm imm) s

/-- `sub-register`: `x[A] <- (x[A] - x[B]) mod 2^32` (R112). -/
def execSubRegister (a b : RegIndex) (s : State) : Host.Outcome State Fault Refusal :=
  updateReg (fun x y => x - y) a (.reg b) s

/-- `sub-immediate`: `x[A] <- (x[A] - zext_32(IMM)) mod 2^32` (R113). -/
def execSubImmediate (a : RegIndex) (imm : Imm) (s : State) : Host.Outcome State Fault Refusal :=
  updateReg (fun x y => x - y) a (.imm imm) s

end Sys2Proof.Machine
end

