-- ==== Sys2Proof/Machine/Flags.lean ====
section
/-! DEFINITION. The one flag computation of the hardware, and the one use of the flag (R16, R130, R132, R133). -/

namespace Sys2Proof.Machine

/-- `ZF` after a `compare` of two words: equality of the 32-bit values (R130). -/
def zfOfCompare (x y : Word) : Bool := x == y

/-- `ZF <- (x[A] = x[B]); pc <- pc + 4`; no register is written (R130). -/
def compareRegs (a b : RegIndex) (s : State) : Host.Outcome State Fault Refusal :=
  finish s do
    checkRegs s [a, b]
    let x ← regGet s a
    let y ← regGet s b
    pure (s.setZf (zfOfCompare x y)).advance

/-- `pc <- zext_32(IMM)` when the jump is taken, else `pc <- pc + 4`; the target is not checked (R134). -/
def jumpWhen (taken : Bool) (target : Imm) (s : State) : Host.Outcome State Fault Refusal :=
  finish s (.ok (if taken then s.setPc (imm32 target) else s.advance))

end Sys2Proof.Machine
end

