-- ==== Sys2Proof/Machine/CompareBranch.lean ====
section
/-! DEFINITION. Compare and control transfer (43_compare_branch.md). -/

namespace Sys2Proof.Machine

/-- `compare`: `ZF <- (x[A] = x[B])` (R130). -/
def execCompare (a b : RegIndex) (s : State) : Host.Outcome State Fault Refusal :=
  compareRegs a b s

/-- `jump`: `pc <- zext_32(IMM)` (R131). -/
def execJump (imm : Imm) (s : State) : Host.Outcome State Fault Refusal :=
  jumpWhen true imm s

/-- `jump-if-zero`: taken iff `ZF = 1` (R132). -/
def execJumpIfZero (imm : Imm) (s : State) : Host.Outcome State Fault Refusal :=
  jumpWhen s.zf imm s

/-- `jump-if-not-zero`: taken iff `ZF = 0` (R133). -/
def execJumpIfNotZero (imm : Imm) (s : State) : Host.Outcome State Fault Refusal :=
  jumpWhen (!s.zf) imm s

end Sys2Proof.Machine
end

