-- ==== Sys2Proof/Machine/LoadStore.lean ====
section
/-! DEFINITION. Loads and stores (44_load_store.md). -/

namespace Sys2Proof.Machine

/-- `load-register-indirect`: `x[A] <- MemRead(x[B], 4)` (R140). -/
def execLoadRegisterIndirect (a b : RegIndex) (s : State) : Host.Outcome State Fault Refusal :=
  loadReg a (.reg b) s

/-- `load-immediate-address`: `x[A] <- MemRead(zext_32(IMM), 4)` (R141). -/
def execLoadImmediateAddress (a : RegIndex) (imm : Imm) (s : State) : Host.Outcome State Fault Refusal :=
  loadReg a (.imm imm) s

/-- `store-register-indirect`: `MemWrite(x[B], 4, x[A])` (R142). -/
def execStoreRegisterIndirect (a b : RegIndex) (s : State) : Host.Outcome State Fault Refusal :=
  storeReg a (.reg b) s

/-- `store-immediate-address`: `MemWrite(zext_32(IMM), 4, x[A])` (R143). -/
def execStoreImmediateAddress (a : RegIndex) (imm : Imm) (s : State) : Host.Outcome State Fault Refusal :=
  storeReg a (.imm imm) s

end Sys2Proof.Machine
end

