-- ==== Sys2Proof/Machine/LogicShift.lean ====
section
/-! DEFINITION. Bitwise operations and logical shifts (42_logic_shift.md). -/

namespace Sys2Proof.Machine

/-- `and-register`: `x[A] <- x[A] & x[B]` (R120). -/
def execAndRegister (a b : RegIndex) (s : State) : Host.Outcome State Fault Refusal :=
  updateReg (fun x y => x &&& y) a (.reg b) s

/-- `and-immediate`: `x[A] <- x[A] & zext_32(IMM)` (R121). -/
def execAndImmediate (a : RegIndex) (imm : Imm) (s : State) : Host.Outcome State Fault Refusal :=
  updateReg (fun x y => x &&& y) a (.imm imm) s

/-- `or-register`: `x[A] <- x[A] | x[B]` (R122). -/
def execOrRegister (a b : RegIndex) (s : State) : Host.Outcome State Fault Refusal :=
  updateReg (fun x y => x ||| y) a (.reg b) s

/-- `or-immediate`: `x[A] <- x[A] | zext_32(IMM)` (R123). -/
def execOrImmediate (a : RegIndex) (imm : Imm) (s : State) : Host.Outcome State Fault Refusal :=
  updateReg (fun x y => x ||| y) a (.imm imm) s

/-- `shift-right-immediate`: `x[A] <- floor(x[A] / 2^IMM)`, the whole immediate as the amount (R124, R126, D7). -/
def execShiftRightImmediate (a : RegIndex) (imm : Imm) (s : State) : Host.Outcome State Fault Refusal :=
  updateReg (fun x n => x >>> n.toNat) a (.imm imm) s

/-- `shift-left-immediate`: `x[A] <- (x[A] * 2^IMM) mod 2^32`, the whole immediate as the amount (R125, R126, D7). -/
def execShiftLeftImmediate (a : RegIndex) (imm : Imm) (s : State) : Host.Outcome State Fault Refusal :=
  updateReg (fun x n => x <<< n.toNat) a (.imm imm) s

end Sys2Proof.Machine
end

