-- ==== Sys2Proof/Machine/Move.lean ====
section
/-! DEFINITION. Data movement (40_move.md). -/

namespace Sys2Proof.Machine

/-- `move-register`: `x[A] <- x[B]` (R100). -/
def execMoveRegister (a b : RegIndex) (s : State) : Host.Outcome State Fault Refusal :=
  assignReg a (.reg b) s

/-- `move-immediate`: `x[A] <- zext_32(IMM)` (R101). -/
def execMoveImmediate (a : RegIndex) (imm : Imm) (s : State) : Host.Outcome State Fault Refusal :=
  assignReg a (.imm imm) s

end Sys2Proof.Machine
end

