-- ==== Sys2Proof/Machine/System.lean ====
section
/-! DEFINITION. System instructions (45_system.md). -/

namespace Sys2Proof.Machine

/-- `halt`: `HALTED <- 1`; `pc` keeps the address of the instruction (R150, D9). -/
def execHalt (s : State) : Host.Outcome State Fault Refusal :=
  finish s (.ok s.setHalted)

/-- `no-op`: only `pc` advances (R151). -/
def execNoOp (s : State) : Host.Outcome State Fault Refusal :=
  finish s (.ok s.advance)

end Sys2Proof.Machine
end

