-- ==== Sys2Proof/Machine/Dispatch.lean ====
section
/-! DEFINITION. Dispatch on the instruction (R22 S6): one arm per constructor of Instr. -/

namespace Sys2Proof.Machine

/-- Stages S5 and S6 of the step (R22) for a selected instruction. -/
def exec (i : Instr) (s : State) : Host.Outcome State Fault Refusal :=
  match i with
  | .moveRegister a b => Sys2Proof.Machine.execMoveRegister a b s
  | .moveImmediate a imm => Sys2Proof.Machine.execMoveImmediate a imm s
  | .addRegister a b => Sys2Proof.Machine.execAddRegister a b s
  | .addImmediate a imm => Sys2Proof.Machine.execAddImmediate a imm s
  | .subRegister a b => Sys2Proof.Machine.execSubRegister a b s
  | .subImmediate a imm => Sys2Proof.Machine.execSubImmediate a imm s
  | .andRegister a b => Sys2Proof.Machine.execAndRegister a b s
  | .andImmediate a imm => Sys2Proof.Machine.execAndImmediate a imm s
  | .orRegister a b => Sys2Proof.Machine.execOrRegister a b s
  | .orImmediate a imm => Sys2Proof.Machine.execOrImmediate a imm s
  | .shiftRightImmediate a imm => Sys2Proof.Machine.execShiftRightImmediate a imm s
  | .shiftLeftImmediate a imm => Sys2Proof.Machine.execShiftLeftImmediate a imm s
  | .compare a b => Sys2Proof.Machine.execCompare a b s
  | .jump imm => Sys2Proof.Machine.execJump imm s
  | .jumpIfZero imm => Sys2Proof.Machine.execJumpIfZero imm s
  | .jumpIfNotZero imm => Sys2Proof.Machine.execJumpIfNotZero imm s
  | .loadRegisterIndirect a b => Sys2Proof.Machine.execLoadRegisterIndirect a b s
  | .loadImmediateAddress a imm => Sys2Proof.Machine.execLoadImmediateAddress a imm s
  | .storeRegisterIndirect a b => Sys2Proof.Machine.execStoreRegisterIndirect a b s
  | .storeImmediateAddress a imm => Sys2Proof.Machine.execStoreImmediateAddress a imm s
  | .halt => Sys2Proof.Machine.execHalt s
  | .noOp => Sys2Proof.Machine.execNoOp s

end Sys2Proof.Machine
end

