-- ==== Sys2Proof/Machine/Step.lean ====
section
/-! DEFINITION. The step (R22, R23), and the placing of a word where the next step fetches it. -/

namespace Sys2Proof.Machine

/-- One step (R22). A halted machine takes none: it stays as it is (R17, R23 last row; DESIGN CHOICE, log 24). -/
def step (s : State) : Host.Outcome State Fault Refusal :=
  if s.halted then .next s
  else
    match fetch s with
    | .error f => raise f s
    | .ok w =>
      match decodeWord s.cfg.opmap w with
      | .ok i => exec i s
      | .error _ => unrecognized s

/-- `s` with an instruction word, numbered as spec/opcode_table.json numbers it, stored at `pc`. It stands for the host's
loading of the image, so it is not subject to the write protection of ROM (log 25). -/
def State.withFetchWord (s : State) (nbits w : Nat) : State :=
  s.setMem (Memory.writeWord s.mem s.pc.toNat (tableWord nbits w))

end Sys2Proof.Machine
end

