-- ==== Sys2Proof/Machine/Assembly.lean ====
section
/-! DEFINITION. The assembly notation of R81 (D16), in abstract form: statements with labels, assembled to words and written
as text. Reading text is the excluded image-authoring tool's (R3). There are no pseudo-instructions (R82). -/

namespace Sys2Proof

/-- The operands column of R75. -/
inductive OperandForm where
  | regReg
  | regImm
  | immOnly
  | noOperands
deriving DecidableEq, Repr

/-- The operands each mnemonic is written with (R75, R81). -/
def Mnemonic.form : Mnemonic → OperandForm
  | .moveRegister => .regReg
  | .moveImmediate => .regImm
  | .addRegister => .regReg
  | .addImmediate => .regImm
  | .subRegister => .regReg
  | .subImmediate => .regImm
  | .andRegister => .regReg
  | .andImmediate => .regImm
  | .orRegister => .regReg
  | .orImmediate => .regImm
  | .shiftRightImmediate => .regImm
  | .shiftLeftImmediate => .regImm
  | .compare => .regReg
  | .jump => .immOnly
  | .jumpIfZero => .immOnly
  | .jumpIfNotZero => .immOnly
  | .loadRegisterIndirect => .regReg
  | .loadImmediateAddress => .regImm
  | .storeRegisterIndirect => .regReg
  | .storeImmediateAddress => .regImm
  | .halt => .noOperands
  | .noOp => .noOperands

/-- The name of a mnemonic, spelled with hyphens, in lower case (R75, R81). -/
def Mnemonic.text : Mnemonic → String
  | .moveRegister => "move-register"
  | .moveImmediate => "move-immediate"
  | .addRegister => "add-register"
  | .addImmediate => "add-immediate"
  | .subRegister => "sub-register"
  | .subImmediate => "sub-immediate"
  | .andRegister => "and-register"
  | .andImmediate => "and-immediate"
  | .orRegister => "or-register"
  | .orImmediate => "or-immediate"
  | .shiftRightImmediate => "shift-right-immediate"
  | .shiftLeftImmediate => "shift-left-immediate"
  | .compare => "compare"
  | .jump => "jump"
  | .jumpIfZero => "jump-if-zero"
  | .jumpIfNotZero => "jump-if-not-zero"
  | .loadRegisterIndirect => "load-register-indirect"
  | .loadImmediateAddress => "load-immediate-address"
  | .storeRegisterIndirect => "store-register-indirect"
  | .storeImmediateAddress => "store-immediate-address"
  | .halt => "halt"
  | .noOp => "no-op"

/-- `operand ::= register | number | label` (R81). -/
inductive AsmOperand where
  | reg (i : RegIndex)
  | number (n : Imm)
  | label (name : String)
deriving DecidableEq, Repr

/-- An instruction with its operands in the order of R75, or a data word `word(n)` (R81). -/
inductive AsmBody where
  | instr (m : Mnemonic) (operands : List AsmOperand)
  | word (n : Word)
deriving DecidableEq, Repr

/-- `statement ::= [ label ":" ] ...` (R81). -/
structure AsmStatement where
  label : Option String
  body : AsmBody
deriving DecidableEq, Repr

/-- Why a program does not assemble (DESIGN CHOICE, log 27: R81 names no errors). -/
inductive AsmError where
  /-- A label no statement carries. -/
  | unknownLabel (name : String)
  /-- A label whose byte address does not fit the 16-bit immediate. -/
  | labelOutOfRange (name : String)
  /-- Operands that are not those of the mnemonic. -/
  | operandForm (m : Mnemonic)
deriving DecidableEq, Repr

/-- The byte address of the statement a label marks; each statement takes four bytes (R70, R81). -/
def labelAddress (name : String) : List AsmStatement → Nat → Option Nat
  | [], _ => none
  | st :: rest, at_ => if st.label = some name then some at_ else labelAddress name rest (at_ + 4)

/-- A number, or the address a label stands for, as an immediate. -/
def AsmOperand.toImm (program : List AsmStatement) (base : Nat) (m : Mnemonic) : AsmOperand → Except AsmError Imm
  | .reg _ => .error (.operandForm m)
  | .number n => .ok n
  | .label name =>
    match labelAddress name program base with
    | none => .error (.unknownLabel name)
    | some address => if address < 2 ^ 16 then .ok (BitVec.ofNat 16 address) else .error (.labelOutOfRange name)

/-- One statement assembled: the operands in the fields R81 gives them, 0 in every ignored field. -/
def AsmStatement.assemble (om : OpMap) (program : List AsmStatement) (base : Nat) (st : AsmStatement) :
    Except AsmError Word :=
  match st.body with
  | .word n => .ok n
  | .instr m operands =>
    match m.form, operands with
    | .regReg, [.reg a, .reg b] => .ok (encodeFields ⟨om.opcodeOf m, a, b, 0⟩)
    | .regImm, [.reg a, x] => (x.toImm program base m).map (fun n => encodeFields ⟨om.opcodeOf m, a, 0, n⟩)
    | .immOnly, [x] => (x.toImm program base m).map (fun n => encodeFields ⟨om.opcodeOf m, 0, 0, n⟩)
    | .noOperands, [] => .ok (encodeFields ⟨om.opcodeOf m, 0, 0, 0⟩)
    | _, _ => .error (.operandForm m)

/-- A program assembled to words, to be placed from the byte address `base` on. -/
def assemble (om : OpMap) (program : List AsmStatement) (base : Nat) : Except AsmError (List Word) :=
  program.mapM (AsmStatement.assemble om program base)

/-- The bytes of an assembled program, in image order (R40, R190). -/
def imageOfWords (ws : List Word) : List Byte := ws.flatMap bytesOfWord

/-- An operand as R81 writes it. -/
def AsmOperand.text : AsmOperand → String
  | .reg i => "R" ++ toString i.toNat
  | .number n => toString n.toNat
  | .label name => name

/-- A statement as R81 writes it; no parentheses without operands. -/
def AsmStatement.text (st : AsmStatement) : String :=
  (match st.label with
    | none => ""
    | some name => name ++ ": ") ++
  (match st.body with
    | .word n => "word(" ++ toString n.toNat ++ ")"
    | .instr m [] => m.text
    | .instr m operands => m.text ++ "(" ++ ", ".intercalate (operands.map AsmOperand.text) ++ ")")

/-- The statement that writes an instruction in the notation of R81. -/
def Instr.statement (i : Instr) : AsmStatement where
  label := none
  body := .instr i.mnemonic
    (i.fieldA.toList.map .reg ++ i.fieldB.toList.map .reg ++ i.fieldImm.toList.map .number)

end Sys2Proof
end

