-- ==== Sys2Proof/Safety.lean ====
section
/-! DEFINITION. The terms the claims are stated in: the invariant of the machine, how a run ends (R23, R195), what a step is
about to run, and what two states have in common. -/

namespace Sys2Proof.Machine

/-! ### The invariant -/

/-- What holds of every state a machine can be in (R4, R10, R18, R21, R168, R192). -/
structure State.Inv (s : State) : Prop where
  /-- The parameters are legal (R4, R75). -/
  cfg_wf : s.cfg.wf
  /-- There is a register (R4). -/
  nreg_pos : 1 ≤ s.nreg
  /-- A 4-bit field names at most 16 registers (R4). -/
  nreg_le : s.nreg ≤ 16
  /-- Memory is in canonical form. -/
  mem_wf : Memory.wf s.mem
  /-- No byte exists at or above `TOTAL_SIZE` (R21). -/
  mem_inside : ∀ c ∈ s.mem, c.1 < s.cfg.totalSize
  /-- A latched fault goes with `HALTED` (R18, R166). -/
  fault_halted : s.fault ≠ none → s.halted = true
  /-- A failed construction leaves no state (R168). -/
  fault_of_step : s.fault ≠ some .invalidImageSize
  /-- A machine without a first instruction never leaves the entry point (R192, R166; log 28, and D9 for `pc`). -/
  entry : s.cfg.romSize < 4 → s.pc = 0

/-! ### How a run stands (R23, R195) -/

/-- The engine is in the state `Running`. -/
def State.running (s : State) : Prop := s.halted = false

/-- The run has ended normally: by `halt`. -/
def State.endedNormally (s : State) : Prop := s.halted = true ∧ s.fault = none

/-- The run has ended in error. -/
def State.endedInError (s : State) : Prop := s.halted = true ∧ s.fault ≠ none

/-- A safe run: for as long as it is followed, it does not end in error. -/
def State.safeFor (s : State) (k : Nat) : Prop := ∀ n ≤ k, ∀ t, core.run n s = .next t → ¬ State.endedInError t

/-! ### What a step is about to run -/

/-- The instruction at `pc`, when the fetch succeeds and the opcode is recognized (R22 S1 to S4). -/
def State.current (s : State) : Option Instr :=
  match fetch s with
  | .error _ => none
  | .ok w =>
    match decodeWord s.cfg.opmap w with
    | .ok i => some i
    | .error _ => none

/-! ### Addresses (R144) -/

/-- The address a load reads, in the state it runs in (R140, R141); none for the other instructions. -/
def loadAddress (s : State) : Instr → Option Word
  | .moveRegister _ _ => none
  | .moveImmediate _ _ => none
  | .addRegister _ _ => none
  | .addImmediate _ _ => none
  | .subRegister _ _ => none
  | .subImmediate _ _ => none
  | .andRegister _ _ => none
  | .andImmediate _ _ => none
  | .orRegister _ _ => none
  | .orImmediate _ _ => none
  | .shiftRightImmediate _ _ => none
  | .shiftLeftImmediate _ _ => none
  | .compare _ _ => none
  | .jump _ => none
  | .jumpIfZero _ => none
  | .jumpIfNotZero _ => none
  | .loadRegisterIndirect _ b => some (s.reg b)
  | .loadImmediateAddress _ n => some (imm32 n)
  | .storeRegisterIndirect _ _ => none
  | .storeImmediateAddress _ _ => none
  | .halt => none
  | .noOp => none

/-- The address a store writes, in the state it runs in (R142, R143); none for the other instructions. -/
def storeAddress (s : State) : Instr → Option Word
  | .moveRegister _ _ => none
  | .moveImmediate _ _ => none
  | .addRegister _ _ => none
  | .addImmediate _ _ => none
  | .subRegister _ _ => none
  | .subImmediate _ _ => none
  | .andRegister _ _ => none
  | .andImmediate _ _ => none
  | .orRegister _ _ => none
  | .orImmediate _ _ => none
  | .shiftRightImmediate _ _ => none
  | .shiftLeftImmediate _ _ => none
  | .compare _ _ => none
  | .jump _ => none
  | .jumpIfZero _ => none
  | .jumpIfNotZero _ => none
  | .loadRegisterIndirect _ _ => none
  | .loadImmediateAddress _ _ => none
  | .storeRegisterIndirect _ b => some (s.reg b)
  | .storeImmediateAddress _ n => some (imm32 n)
  | .halt => none
  | .noOp => none

/-! ### What two states have in common -/

/-- The parameters are the same. -/
def sameConfig (s t : State) : Prop := t.cfg = s.cfg ∧ t.nreg = s.nreg

/-- Every register holds what it held. -/
def sameRegs (s t : State) : Prop := ∀ r, t.reg r = s.reg r

/-- Every register but `a` holds what it held. -/
def sameRegsExcept (a : RegIndex) (s t : State) : Prop := ∀ r, r ≠ a → t.reg r = s.reg r

/-- `HALTED` and `FAULT` are as they were. -/
def sameStatus (s t : State) : Prop := t.halted = s.halted ∧ t.fault = s.fault

/-- Every byte of memory reads as it did. -/
def sameMemory (s t : State) : Prop := ∀ n, t.byteAt n = s.byteAt n

/-- Every byte of memory outside the four from `a` on reads as it did. -/
def sameMemoryOutside (a : Nat) (s t : State) : Prop := ∀ n, n < a ∨ a + 4 ≤ n → t.byteAt n = s.byteAt n

/-- `pc` has become `(pc + 4) mod 2^32` (R15). -/
def pcAdvanced (s t : State) : Prop := t.pc.toNat = (s.pc.toNat + 4) % 2 ^ 32

/-- An outcome is the machine halted by the fatal error `f` with no register, no `ZF` and no byte of memory written.
Nothing is said of `pc`. -/
def stopsWith (f : FatalError) (s : State) (o : Host.Outcome State Fault Refusal) : Prop :=
  ∃ t, o = .next t ∧ t.halted = true ∧ t.fault = some f ∧
    sameRegs s t ∧ t.zf = s.zf ∧ sameMemory s t ∧ sameConfig s t

/-! ### The shape of an instruction rule: encoding, effect with frame, fault (R7) -/

/-- A rule with operands `A` and `B` that writes `x[A]`. `post` relates `x[A]`, `x[B]` and the new `x[A]`. The word with
any `IMM` decodes to the instruction; it completes when both registers exist; otherwise it raises `InvalidRegisterIndex`. -/
def twoRegisterRule (m : Mnemonic) (instr : RegIndex → RegIndex → Instr) (post : Word → Word → Word → Prop) : Prop :=
  (∀ om : OpMap, om.wf → ∀ a b n, decodeWord om (encodeFields ⟨om.opcodeOf m, a, b, n⟩) = .ok (instr a b)) ∧
  (∀ (s : State) (a b : RegIndex), a.toNat < s.nreg → b.toNat < s.nreg →
    ∃ t, exec (instr a b) s = .next t ∧ post (s.reg a) (s.reg b) (t.reg a) ∧ sameRegsExcept a s t ∧
      pcAdvanced s t ∧ t.zf = s.zf ∧ sameStatus s t ∧ sameMemory s t ∧ sameConfig s t) ∧
  (∀ (s : State) (a b : RegIndex), s.nreg ≤ a.toNat ∨ s.nreg ≤ b.toNat →
    stopsWith .invalidRegisterIndex s (exec (instr a b) s))

/-- A rule with operands `A` and `IMM` that writes `x[A]`. `post` relates `x[A]`, `IMM` and the new `x[A]`. The word with
any `B` decodes to the instruction; it completes when `x[A]` exists; otherwise it raises `InvalidRegisterIndex`. -/
def registerImmediateRule (m : Mnemonic) (instr : RegIndex → Imm → Instr) (post : Word → Imm → Word → Prop) : Prop :=
  (∀ om : OpMap, om.wf → ∀ a b n, decodeWord om (encodeFields ⟨om.opcodeOf m, a, b, n⟩) = .ok (instr a n)) ∧
  (∀ (s : State) (a : RegIndex) (n : Imm), a.toNat < s.nreg →
    ∃ t, exec (instr a n) s = .next t ∧ post (s.reg a) n (t.reg a) ∧ sameRegsExcept a s t ∧
      pcAdvanced s t ∧ t.zf = s.zf ∧ sameStatus s t ∧ sameMemory s t ∧ sameConfig s t) ∧
  (∀ (s : State) (a : RegIndex) (n : Imm), s.nreg ≤ a.toNat →
    stopsWith .invalidRegisterIndex s (exec (instr a n) s))

/-- A jump: the word with any `A` and `B` decodes to the instruction; in every state it completes, with `pc` the target
when `taken` and `(pc + 4) mod 2^32` otherwise, and nothing else changed. -/
def jumpRule (m : Mnemonic) (instr : Imm → Instr) (taken : State → Prop) : Prop :=
  (∀ om : OpMap, om.wf → ∀ a b n, decodeWord om (encodeFields ⟨om.opcodeOf m, a, b, n⟩) = .ok (instr n)) ∧
  (∀ (s : State) (n : Imm), ∃ t, exec (instr n) s = .next t ∧
    (taken s → t.pc.toNat = n.toNat) ∧ (¬ taken s → pcAdvanced s t) ∧
    sameRegs s t ∧ t.zf = s.zf ∧ sameStatus s t ∧ sameMemory s t ∧ sameConfig s t)

/-- What a load `i` to `x[A]` from the address `addr` does once its registers exist (R46, R140, R141): inside a region the
word of the four bytes, little-endian, goes to `x[A]`; outside or across the boundary it raises `OutOfBounds`. -/
def loadRule (i : Instr) (a : RegIndex) (addr : Word) (s : State) : Prop :=
  (region s.cfg addr.toNat = .rom ∨ region s.cfg addr.toNat = .ram →
    ∃ t, exec i s = .next t ∧
      (t.reg a).toNat = (s.byteAt addr.toNat).toNat + 2 ^ 8 * (s.byteAt (addr.toNat + 1)).toNat +
        2 ^ 16 * (s.byteAt (addr.toNat + 2)).toNat + 2 ^ 24 * (s.byteAt (addr.toNat + 3)).toNat ∧
      sameRegsExcept a s t ∧ pcAdvanced s t ∧ t.zf = s.zf ∧ sameStatus s t ∧ sameMemory s t ∧ sameConfig s t) ∧
  (region s.cfg addr.toNat = .outside ∨ region s.cfg addr.toNat = .straddle → stopsWith .outOfBounds s (exec i s))

/-- What a store `i` of the word `v` to the address `addr` does once its registers exist (R47, R142, R143): in RAM the four
bytes of `v`, little-endian, and no other byte; elsewhere it raises, and writes nothing. -/
def storeRule (i : Instr) (v addr : Word) (s : State) : Prop :=
  (region s.cfg addr.toNat = .ram →
    ∃ t, exec i s = .next t ∧
      (∀ k, k < 4 → (t.byteAt (addr.toNat + k)).toNat = v.toNat / 2 ^ (8 * k) % 2 ^ 8) ∧
      sameMemoryOutside addr.toNat s t ∧
      sameRegs s t ∧ pcAdvanced s t ∧ t.zf = s.zf ∧ sameStatus s t ∧ sameConfig s t) ∧
  (region s.cfg addr.toNat = .outside → stopsWith .outOfBounds s (exec i s)) ∧
  (region s.cfg addr.toNat = .rom ∨ region s.cfg addr.toNat = .straddle → stopsWith .readOnlyViolation s (exec i s))

end Sys2Proof.Machine
end

