-- ==== Sys2Proof/Certificates/Slice0/Obligations.lean ====
section
/-! DEFINITION. The statements for the provers. D<n> is a decision of spec/92_eei_decisions.md: a choice of the spec, not of
its source. A statement that rests on one says so. -/

open Sys2Proof Sys2Proof.Machine

/-! ### Encoding -/

/-- R72: `decode` and `encode` of field tuples are inverse bijections, and `encode` is the sum the rule gives. -/
def Obligations.FieldTuplesAndWordsCorrespond : Prop :=
  (∀ w : Word, encodeFields (decodeFields w) = w) ∧
  (∀ f : Fields, decodeFields (encodeFields f) = f) ∧
  (∀ f : Fields, (encodeFields f).toNat =
    f.opcode.toNat * 2 ^ 24 + f.regA.toNat * 2 ^ 20 + f.regB.toNat * 2 ^ 16 + f.imm.toNat)

/-- R71: the fields of a word by their bit positions, and the four bytes of an instruction word in memory. -/
def Obligations.InstructionFieldsInWordAndMemory : Prop :=
  (∀ w : Word,
    (decodeFields w).opcode.toNat = w.toNat / 2 ^ 24 ∧
    (decodeFields w).regA.toNat = w.toNat / 2 ^ 20 % 2 ^ 4 ∧
    (decodeFields w).regB.toNat = w.toNat / 2 ^ 16 % 2 ^ 4 ∧
    (decodeFields w).imm.toNat = w.toNat % 2 ^ 16) ∧
  (∀ (m : Memory) (p : Nat) (f : Fields),
    (Memory.read (Memory.writeWord m p (encodeFields f)) p).toNat = f.imm.toNat % 2 ^ 8 ∧
    (Memory.read (Memory.writeWord m p (encodeFields f)) (p + 1)).toNat = f.imm.toNat / 2 ^ 8 ∧
    (Memory.read (Memory.writeWord m p (encodeFields f)) (p + 2)).toNat = f.regA.toNat * 16 + f.regB.toNat ∧
    (Memory.read (Memory.writeWord m p (encodeFields f)) (p + 3)).toNat = f.opcode.toNat)

/-- Decoding an encoded instruction gives it back, as a word and as bytes with anything behind them, for every instruction,
every operand and every injective `OPMAP` (30_encoding.md sections 1 and 3). -/
def Obligations.DecodeOfEncodeIsTheInstruction : Prop :=
  ∀ om : OpMap, om.wf → ∀ i : Instr,
    decodeWord om (encode om i) = .ok i ∧
    ∀ rest : List Byte, decode om (encodeBytes om i ++ rest) = .ok (i, rest)

/-- D12 (R77 rests on it): a word that agrees with a decodable one in the opcode and in the fields its instruction uses
decodes to the same instruction, whatever stands in the ignored fields. -/
def Obligations.IgnoredFieldsDoNotMatter : Prop :=
  ∀ (om : OpMap) (v w : Word) (i : Instr), decodeWord om v = .ok i →
    (decodeFields w).opcode = (decodeFields v).opcode →
    (i.fieldA ≠ none → (decodeFields w).regA = (decodeFields v).regA) →
    (i.fieldB ≠ none → (decodeFields w).regB = (decodeFields v).regB) →
    (i.fieldImm ≠ none → (decodeFields w).imm = (decodeFields v).imm) →
    decodeWord om w = .ok i

/-- Selection is by `opcode` alone, and the operands of the selected instruction are the fields of the word; an opcode of no
mnemonic is refused by name (30_encoding.md sections 3 and 4). -/
def Obligations.SelectionIsByOpcodeAlone : Prop :=
  ∀ (om : OpMap) (w : Word),
    (om.wf → ∀ m : Mnemonic, om.opcodeOf m = (decodeFields w).opcode →
      ∃ i, decodeWord om w = .ok i ∧ i.mnemonic = m ∧
        (∀ a, i.fieldA = some a → a = (decodeFields w).regA) ∧
        (∀ b, i.fieldB = some b → b = (decodeFields w).regB) ∧
        (∀ n, i.fieldImm = some n → n = (decodeFields w).imm)) ∧
    ((∀ m : Mnemonic, om.opcodeOf m ≠ (decodeFields w).opcode) →
      decodeWord om w = .error (.unrecognizedOpcode (decodeFields w).opcode))

/-- The default `OPMAP` (D1: the values are the spec's own) is injective, and words written out by the spec decode to the
instructions they stand for: one of each family, with ignored fields set in two of them, and one refused. -/
def Obligations.DefaultTableWordsDecode : Prop :=
  OpMap.default.wf ∧
  decodeTableWord 32 0x00210000 = some (.moveRegister 2 1) ∧
  decodeTableWord 32 0x0137ABCD = some (.moveImmediate 3 0xABCD) ∧
  decodeTableWord 32 0x05000001 = some (.subImmediate 0 1) ∧
  decodeTableWord 32 0x0B300010 = some (.shiftLeftImmediate 3 16) ∧
  decodeTableWord 32 0x0C230000 = some (.compare 2 3) ∧
  decodeTableWord 32 0x0D990010 = some (.jump 0x10) ∧
  decodeTableWord 32 0x12210000 = some (.storeRegisterIndirect 2 1) ∧
  decodeTableWord 32 0x11200100 = some (.loadImmediateAddress 2 0x100) ∧
  decodeTableWord 32 0x14000000 = some .halt ∧
  decodeTableWord 32 0x16000000 = none

/-- The notation of R81 (D16: the spec's own): an instruction written as a statement assembles to its canonical encoding,
in every program and at every base address. -/
def Obligations.AssembledStatementsEncodeInstructions : Prop :=
  ∀ (om : OpMap) (program : List AsmStatement) (base : Nat) (i : Instr),
    i.statement.assemble om program base = .ok (encode om i)

/-! ### Construction, reset and the invariant -/

/-- Construction with an image of the right length gives the reset state of 70_reset_and_hazards.md section 1. The registers'
value 0 is D8, the latch's `None` is D10, the expected length D13. At and above `TOTAL_SIZE`, where R21 says that no byte
exists, `byteAt` 0 is the model's choice of what an unlisted address reads as (DESIGN CHOICE, log 26). -/
def Obligations.ConstructionGivesTheResetState : Prop :=
  ∀ (nreg : Nat) (c : Config) (image : List Byte), image.length = c.romSize →
    ∃ s, construct nreg c image = .next s ∧ s.cfg = c ∧ s.nreg = nreg ∧
      (∀ r, s.reg r = 0) ∧ s.pc = 0 ∧ s.zf = false ∧ s.halted = false ∧ s.fault = none ∧
      (∀ n, n < c.romSize → image[n]? = some (s.byteAt n)) ∧
      (∀ n, c.romSize ≤ n → s.byteAt n = 0)

/-- Construction with an image of another length fails with `InvalidImageSize`, and there is no machine (the expected length
`ROM_SIZE` is D13; D20). -/
def Obligations.WrongImageLengthFailsConstruction : Prop :=
  ∀ (nreg : Nat) (c : Config) (image : List Byte), image.length ≠ c.romSize →
    construct nreg c image = .fault .invalidImageSize

/-- Every machine constructed with legal parameters satisfies the invariant (its clause `entry` is about log 28). -/
def Obligations.ConstructedMachinesSatisfyTheInvariant : Prop :=
  ∀ (nreg : Nat) (c : Config) (image : List Byte) (s : State), c.wf → 1 ≤ nreg → nreg ≤ 16 →
    construct nreg c image = .next s → s.Inv

/-- The model's reset state satisfies the invariant and is a constructed machine: configuration `T`, four registers, the image
of zeros (the model's choice of parameters, log 23). -/
def Obligations.ResetSatisfiesTheInvariant : Prop :=
  State.reset.Inv ∧ construct 4 Config.reset (List.replicate 256 0) = .next State.reset

/-- The invariant holds after every step from every state in which it holds. Its clause `entry` rests on log 28 (the first
fetch with `ROM_SIZE = 0`) and on D9 (`pc` after a fault), and on log 24 for a halted machine. -/
def Obligations.EveryStepKeepsTheInvariant : Prop :=
  ∀ s t : State, s.Inv → step s = .next t → t.Inv

/-! ### The step -/

/-- No step and no run of any length is refused or stops outside the machine: a fatal error is a state of the machine. That a
halted machine answers itself is the model's choice (log 24). -/
def Obligations.EveryStepAnswersANextState : Prop :=
  (∀ s : State, ∃ t, step s = .next t) ∧ (∀ (k : Nat) (s : State), ∃ t, core.run k s = .next t)

/-- When the machine is running, `pc` is aligned and inside a region, and the four bytes there decode to an instruction, the
step is that instruction's meaning in that state; nothing is added around it (R22). Set apart is the first fetch of a machine
with `ROM_SIZE < 4`, which faults (R192): FetchOutsideTheRegionsRaisesOutOfBounds. For `ROM_SIZE = 0`, where R44 would read RAM,
that is the model's choice between the two rules (DESIGN CHOICE, log 28). -/
def Obligations.StepRunsTheDecodedInstruction : Prop :=
  ∀ (s : State) (i : Instr), s.running → s.pc.toNat % 4 = 0 →
    region s.cfg s.pc.toNat = .rom ∨ region s.cfg s.pc.toNat = .ram → ¬ s.noFirstInstruction →
    decode s.cfg.opmap [s.byteAt s.pc.toNat, s.byteAt (s.pc.toNat + 1), s.byteAt (s.pc.toNat + 2),
      s.byteAt (s.pc.toNat + 3)] = .ok (i, []) →
    step s = exec i s

/-- `HALTED` is 0 after reset; a step of a halted machine changes nothing (the model's choice, log 24: R22 defines no step
there); `halt` sets it; a step that sets it ran `halt` or is a fatal error, which writes `HALTED` and `FAULT` and leaves `pc`
with all the rest (D9, log 9); every raised fatal error sets it (10_state.md section 3). -/
def Obligations.OnlyHaltAndFatalErrorsSetHalted : Prop :=
  (∀ (nreg : Nat) (c : Config) (image : List Byte) (s : State),
    construct nreg c image = .next s → s.halted = false) ∧
  (∀ s t : State, s.halted = true → step s = .next t → t = s) ∧
  (∀ s t : State, s.running → step s = .next t → t.halted = true →
    s.current = some .halt ∨ ∃ f, t = s.failed f) ∧
  (∀ s : State, s.running → s.current = some .halt → ∃ t, step s = .next t ∧ t.halted = true) ∧
  (∀ (s t : State) (f : FatalError), s.running → s.fault = none → step s = .next t → t.fault = some f →
    t.halted = true)

/-- D3: a running machine whose `pc` is not a multiple of 4 raises `MisalignedFetch`, whatever is in memory, and nothing else
changes. -/
def Obligations.MisalignedPcRaisesMisalignedFetch : Prop :=
  ∀ s : State, s.running → s.pc.toNat % 4 ≠ 0 → step s = .next (s.failed .misalignedFetch)

/-- A running machine whose aligned `pc` has its four bytes not inside one region, or that is at the entry point with
`ROM_SIZE < 4`, raises `OutOfBounds` at the fetch. The straddling case is D5; at the entry point, R192 over R44 for `ROM_SIZE = 0`
is a DESIGN CHOICE and the error's name DEDUCED (log 28); that `pc` stays is D9. -/
def Obligations.FetchOutsideTheRegionsRaisesOutOfBounds : Prop :=
  ∀ s : State, s.running → s.pc.toNat % 4 = 0 →
    region s.cfg s.pc.toNat = .outside ∨ region s.cfg s.pc.toNat = .straddle ∨ s.noFirstInstruction →
    step s = .next (s.failed .outOfBounds)

/-- D2, policy `fault`: a fetched word whose opcode belongs to no mnemonic raises `InvalidOpcode`, whatever its other bits. -/
def Obligations.UnrecognizedOpcodeRaisesInvalidOpcode : Prop :=
  ∀ (s : State) (w : Word), s.running → fetch s = .ok w →
    (∀ m, s.cfg.opmap.opcodeOf m ≠ (decodeFields w).opcode) → s.cfg.unknownOpcode = .fault →
    step s = .next (s.failed .invalidOpcode)

/-- D2, policy `hang`: a fetched word whose opcode belongs to no mnemonic leaves the machine as it is, for ever. -/
def Obligations.UnrecognizedOpcodeHangsUnderPolicyHang : Prop :=
  ∀ (s : State) (w : Word), s.running → fetch s = .ok w →
    (∀ m, s.cfg.opmap.opcodeOf m ≠ (decodeFields w).opcode) → s.cfg.unknownOpcode = .hang →
    ∀ k : Nat, core.run k s = .next s

/-- The faults of each of the 22 instructions after its fetch (the table of 60_exceptions.md section 1 and the order of its
section 2): a running machine without a latched fault ends in the fatal-error sequence with `f` exactly when a used register
does not exist, or, failing that, its data access is refused. The order is D11, `pc` unchanged D9, straddling D5. -/
def Obligations.FaultsOfEachInstruction : Prop :=
  ∀ (i : Instr) (s : State) (f : FatalError), s.running → s.fault = none →
    (exec i s = .next (s.failed f) ↔
      (i.wf s.nreg = false ∧ f = .invalidRegisterIndex) ∨
      (i.wf s.nreg = true ∧ ∃ addr, loadAddress s i = some addr ∧ f = .outOfBounds ∧
        (region s.cfg addr.toNat = .outside ∨ region s.cfg addr.toNat = .straddle)) ∨
      (i.wf s.nreg = true ∧ ∃ addr, storeAddress s i = some addr ∧
        ((f = .outOfBounds ∧ region s.cfg addr.toNat = .outside) ∨
          (f = .readOnlyViolation ∧ (region s.cfg addr.toNat = .rom ∨ region s.cfg addr.toNat = .straddle)))))

/-- Faults are precise: when a step of a running machine latches a fault, `HALTED` and `FAULT` are all that changed (D9 for
`pc`, D10 for the latch). -/
def Obligations.FaultsArePrecise : Prop :=
  ∀ (s t : State) (f : FatalError), s.running → s.fault = none → step s = .next t → t.fault = some f →
    t = s.failed f

/-- The fault latch is written once: from a state of the invariant with a latched fault, every run of any length leaves the
whole state as it is (D10; that the halted machine answers itself is log 24). -/
def Obligations.LatchedFaultNeverChanges : Prop :=
  ∀ (s : State) (f : FatalError), s.Inv → s.fault = some f → ∀ k : Nat, core.run k s = .next s

/-! ### Instructions -/

/-- R100, R101. -/
def Obligations.MovesCopyARegisterOrAZeroExtendedImmediate : Prop :=
  twoRegisterRule .moveRegister .moveRegister (fun _ y r => r = y) ∧
  registerImmediateRule .moveImmediate .moveImmediate (fun _ n r => r.toNat = n.toNat)

/-- R110, R112: the sum and the difference of two registers modulo 2^32. -/
def Obligations.AddAndSubOfRegistersWrap : Prop :=
  twoRegisterRule .addRegister .addRegister (fun x y r => r.toNat = (x.toNat + y.toNat) % 2 ^ 32) ∧
  twoRegisterRule .subRegister .subRegister
    (fun x y r => r.toNat = if y.toNat ≤ x.toNat then x.toNat - y.toNat else x.toNat + 2 ^ 32 - y.toNat)

/-- R111, R113: the immediate is zero-extended, so `0xFFFF` adds and subtracts 65535. -/
def Obligations.AddAndSubOfImmediatesWrap : Prop :=
  registerImmediateRule .addImmediate .addImmediate (fun x n r => r.toNat = (x.toNat + n.toNat) % 2 ^ 32) ∧
  registerImmediateRule .subImmediate .subImmediate
    (fun x n r => r.toNat = if n.toNat ≤ x.toNat then x.toNat - n.toNat else x.toNat + 2 ^ 32 - n.toNat)

/-- R120, R122: bit by bit. -/
def Obligations.AndAndOrOfRegistersAreBitwise : Prop :=
  twoRegisterRule .andRegister .andRegister
    (fun x y r => ∀ k, k < 32 → (r.getLsbD k = true ↔ x.getLsbD k = true ∧ y.getLsbD k = true)) ∧
  twoRegisterRule .orRegister .orRegister
    (fun x y r => ∀ k, k < 32 → (r.getLsbD k = true ↔ x.getLsbD k = true ∨ y.getLsbD k = true))

/-- R121, R123: the low half bit by bit with the immediate; the high half is cleared by AND and kept by OR. -/
def Obligations.AndAndOrOfImmediatesAreBitwise : Prop :=
  registerImmediateRule .andImmediate .andImmediate
    (fun x n r => (∀ k, k < 16 → (r.getLsbD k = true ↔ x.getLsbD k = true ∧ n.getLsbD k = true)) ∧
      ∀ k, 16 ≤ k → k < 32 → r.getLsbD k = false) ∧
  registerImmediateRule .orImmediate .orImmediate
    (fun x n r => (∀ k, k < 16 → (r.getLsbD k = true ↔ x.getLsbD k = true ∨ n.getLsbD k = true)) ∧
      ∀ k, 16 ≤ k → k < 32 → r.getLsbD k = x.getLsbD k)

/-- Logical shifts by the whole 16-bit immediate (42_logic_shift.md). The logical right shift and the value 0 for amounts of
32 or more are D7. -/
def Obligations.ShiftsAreLogicalByTheWholeImmediate : Prop :=
  registerImmediateRule .shiftRightImmediate .shiftRightImmediate
    (fun x n r => r.toNat = x.toNat / 2 ^ n.toNat ∧ (32 ≤ n.toNat → r = 0)) ∧
  registerImmediateRule .shiftLeftImmediate .shiftLeftImmediate
    (fun x n r => r.toNat = x.toNat * 2 ^ n.toNat % 2 ^ 32 ∧ (32 ≤ n.toNat → r = 0))

/-- R130: `compare` completes when both registers exist, sets `ZF` exactly on equality and writes no register; otherwise it
raises `InvalidRegisterIndex` and `ZF` keeps its value. -/
def Obligations.CompareSetsZFExactlyOnEquality : Prop :=
  (∀ om : OpMap, om.wf → ∀ a b n,
    decodeWord om (encodeFields ⟨om.opcodeOf .compare, a, b, n⟩) = .ok (.compare a b)) ∧
  (∀ (s : State) (a b : RegIndex), a.toNat < s.nreg → b.toNat < s.nreg →
    ∃ t, exec (.compare a b) s = .next t ∧ (t.zf = true ↔ s.reg a = s.reg b) ∧
      pcAdvanced s t ∧ sameRegs s t ∧ sameStatus s t ∧ sameMemory s t ∧ sameConfig s t) ∧
  (∀ (s : State) (a b : RegIndex), s.nreg ≤ a.toNat ∨ s.nreg ≤ b.toNat →
    stopsWith .invalidRegisterIndex s (exec (.compare a b) s))

/-- R131, R132, R133: the target is the zero-extended immediate; `jump` always, `jump-if-zero` iff `ZF = 1`,
`jump-if-not-zero` iff `ZF = 0`. -/
def Obligations.JumpsGoToTheImmediate : Prop :=
  jumpRule .jump .jump (fun _ => True) ∧
  jumpRule .jumpIfZero .jumpIfZero (fun s => s.zf = true) ∧
  jumpRule .jumpIfNotZero .jumpIfNotZero (fun s => s.zf = false)

/-- A `jump` to its own address runs for ever: every run leaves the state as it is, and is safe (43_compare_branch.md). -/
def Obligations.JumpToItselfNeitherHaltsNorFaults : Prop :=
  ∀ (s : State) (n : Imm), s.running → s.current = some (.jump n) → s.pc.toNat = n.toNat →
    ∀ k : Nat, core.run k s = .next s ∧ s.safeFor k

/-- Both loads: the address is `x[B]` or the immediate; inside a region the little-endian word goes to `x[A]`; elsewhere
`OutOfBounds`; a missing register raises `InvalidRegisterIndex` first (44_load_store.md). Unaligned addresses are D4, the
straddling read D5, unbounded sums D6, the order D11. -/
def Obligations.LoadsReadAWordOrRaiseOutOfBounds : Prop :=
  (∀ (s : State) (a b : RegIndex), a.toNat < s.nreg → b.toNat < s.nreg →
    loadRule (.loadRegisterIndirect a b) a (s.reg b) s) ∧
  (∀ (s : State) (a b : RegIndex), s.nreg ≤ a.toNat ∨ s.nreg ≤ b.toNat →
    stopsWith .invalidRegisterIndex s (exec (.loadRegisterIndirect a b) s)) ∧
  (∀ (s : State) (a : RegIndex) (n : Imm), a.toNat < s.nreg →
    loadRule (.loadImmediateAddress a n) a (imm32 n) s) ∧
  (∀ (s : State) (a : RegIndex) (n : Imm), s.nreg ≤ a.toNat →
    stopsWith .invalidRegisterIndex s (exec (.loadImmediateAddress a n) s))

/-- Both stores: the address is `x[B]` or the immediate, the value `x[A]`; in RAM its four bytes are written and no other;
elsewhere `OutOfBounds` or `ReadOnlyViolation` and no byte is written (44_load_store.md). D4, D5, D6, D11 as for loads. -/
def Obligations.StoresWriteAWordToRamOnly : Prop :=
  (∀ (s : State) (a b : RegIndex), a.toNat < s.nreg → b.toNat < s.nreg →
    storeRule (.storeRegisterIndirect a b) (s.reg a) (s.reg b) s) ∧
  (∀ (s : State) (a b : RegIndex), s.nreg ≤ a.toNat ∨ s.nreg ≤ b.toNat →
    stopsWith .invalidRegisterIndex s (exec (.storeRegisterIndirect a b) s)) ∧
  (∀ (s : State) (a : RegIndex) (n : Imm), a.toNat < s.nreg →
    storeRule (.storeImmediateAddress a n) (s.reg a) (imm32 n) s) ∧
  (∀ (s : State) (a : RegIndex) (n : Imm), s.nreg ≤ a.toNat →
    stopsWith .invalidRegisterIndex s (exec (.storeImmediateAddress a n) s))

/-- `halt`, with any ignored bits, sets `HALTED` and changes nothing else; that `pc` stays is D9 (45_system.md). -/
def Obligations.HaltSetsHaltedOnly : Prop :=
  (∀ om : OpMap, om.wf → ∀ a b n, decodeWord om (encodeFields ⟨om.opcodeOf .halt, a, b, n⟩) = .ok .halt) ∧
  (∀ s : State, ∃ t, exec .halt s = .next t ∧ t.halted = true ∧ t.fault = s.fault ∧ t.pc = s.pc ∧
    sameRegs s t ∧ t.zf = s.zf ∧ sameMemory s t ∧ sameConfig s t)

/-- R151: `no-op`, with any ignored bits, only advances `pc`. -/
def Obligations.NoOpOnlyAdvancesPc : Prop :=
  (∀ om : OpMap, om.wf → ∀ a b n, decodeWord om (encodeFields ⟨om.opcodeOf .noOp, a, b, n⟩) = .ok .noOp) ∧
  (∀ s : State, ∃ t, exec .noOp s = .next t ∧ pcAdvanced s t ∧
    sameRegs s t ∧ t.zf = s.zf ∧ sameStatus s t ∧ sameMemory s t ∧ sameConfig s t)

/-! ### Rules of the whole machine -/

/-- R16: `ZF` is 0 after reset; `compare` writes it; a step that changes it ran a `compare`; the two conditional jumps read it
(each goes one way for each value); no other instruction's effect depends on it. -/
def Obligations.OnlyCompareWritesZFAndOnlyJumpsReadIt : Prop :=
  (∀ (nreg : Nat) (c : Config) (image : List Byte) (s : State),
    construct nreg c image = .next s → s.zf = false) ∧
  (∀ (s : State) (a b : RegIndex), a.toNat < s.nreg → b.toNat < s.nreg →
    ∃ t, exec (.compare a b) s = .next t ∧ t.zf = decide (s.reg a = s.reg b)) ∧
  (∀ s t : State, step s = .next t → t.zf ≠ s.zf → ∃ a b, s.current = some (.compare a b)) ∧
  (∀ (s : State) (n : Imm), ∃ t u v w,
    exec (.jumpIfZero n) (s.setZf true) = .next t ∧ t.pc = imm32 n ∧
    exec (.jumpIfZero n) (s.setZf false) = .next u ∧ u.pc = s.pc + 4 ∧
    exec (.jumpIfNotZero n) (s.setZf true) = .next v ∧ v.pc = s.pc + 4 ∧
    exec (.jumpIfNotZero n) (s.setZf false) = .next w ∧ w.pc = imm32 n) ∧
  (∀ (i : Instr) (s t : State) (z : Bool), i.mnemonic ≠ .jumpIfZero → i.mnemonic ≠ .jumpIfNotZero →
    exec i s = .next t → ∃ u, exec i (s.setZf z) = .next u ∧ u.setZf t.zf = t)

/-- No run of any length from any state changes a byte below `ROM_SIZE` (20_memory.md sections 3 and 4). -/
def Obligations.RomNeverChanges : Prop :=
  ∀ (k : Nat) (s t : State), core.run k s = .next t → ∀ n, n < s.cfg.romSize → t.byteAt n = s.byteAt n

/-- No run of any length changes a parameter: `NREG`, `ROM_SIZE`, `RAM_SIZE`, `OPMAP`, the policy (10_state.md, opening and
section 6). -/
def Obligations.ParametersNeverChange : Prop :=
  ∀ (k : Nat) (s t : State), core.run k s = .next t → sameConfig s t

/-- A register that a step changes is the `regA` of the instruction at `pc`, and that instruction is one that writes a
register (10_state.md section 1, 30_encoding.md section 3). -/
def Obligations.RegistersChangeOnlyThroughRegA : Prop :=
  ∀ (s t : State) (r : RegIndex), step s = .next t → t.reg r ≠ s.reg r →
    ∃ i, s.current = some i ∧ i.destination = some r ∧ i.fieldA = some r

/-- A byte that a step changes is one of the four, all in RAM, at the address of the store at `pc`, computed in the state the
step began in (20_memory.md section 4, 30_encoding.md section 3). -/
def Obligations.MemoryChangesOnlyByStoresInRam : Prop :=
  ∀ (s t : State) (n : Nat), step s = .next t → t.byteAt n ≠ s.byteAt n →
    ∃ i addr, s.current = some i ∧ storeAddress s i = some addr ∧
      addr.toNat ≤ n ∧ n < addr.toNat + 4 ∧ s.cfg.romSize ≤ addr.toNat ∧ addr.toNat + 3 < s.cfg.totalSize

/-- The `pc` column of the dispatch table, for a step that raises no fault (10_state.md section 2). `halt` leaving `pc` is D9,
the wrap at the top D15. -/
def Obligations.PcFollowsTheDispatchTable : Prop :=
  ∀ (s t : State) (i : Instr), s.running → s.fault = none → s.current = some i →
    step s = .next t → t.fault = none →
    t.pc.toNat =
      match i with
      | .jump n => n.toNat
      | .jumpIfZero n => if s.zf then n.toNat else (s.pc.toNat + 4) % 2 ^ 32
      | .jumpIfNotZero n => if s.zf then (s.pc.toNat + 4) % 2 ^ 32 else n.toNat
      | .halt => s.pc.toNat
      | _ => (s.pc.toNat + 4) % 2 ^ 32

/-- The run has ended normally only at a `halt`: the step that ended it ran the `halt` its `pc` still points at, and set
`HALTED` only (70_reset_and_hazards.md section 2; `pc` by D9). -/
def Obligations.NormalEndIsAtAHalt : Prop :=
  ∀ s t : State, s.running → step s = .next t → t.endedNormally →
    t = s.setHalted ∧ t.current = some .halt

/-- The meaning of an instruction does not depend on the opcode values (30_encoding.md section 3, last sentence). -/
def Obligations.OpcodeValuesDoNotMatterToExecution : Prop :=
  ∀ (i : Instr) (s t : State) (om : OpMap), exec i s = .next t → exec i (s.setOpmap om) = .next (t.setOpmap om)

/-! ### Memory and registers -/

/-- R44: the four classes, their order folded in, and when a straddling address can exist. -/
def Obligations.RegionsRouteEveryAddress : Prop :=
  ∀ (c : Config) (a : Nat),
    (region c a = .outside ↔ a + 3 ≥ c.totalSize) ∧
    (region c a = .rom ↔ a + 3 < c.totalSize ∧ a + 3 < c.romSize) ∧
    (region c a = .ram ↔ a + 3 < c.totalSize ∧ c.romSize ≤ a) ∧
    (region c a = .straddle ↔ a < c.romSize ∧ c.romSize ≤ a + 3 ∧ a + 3 < c.totalSize) ∧
    (region c a = .straddle → 1 ≤ c.romSize ∧ 1 ≤ c.ramSize) ∧
    (region c a = .straddle → c.romSize % 4 = 0 → a % 4 ≠ 0)

/-- The first memory law of 20_memory.md section 4: a word written to RAM is read back, aligned or not. -/
def Obligations.StoredWordIsReadBack : Prop :=
  ∀ (s : State) (a v : Word), region s.cfg a.toNat = .ram →
    ∃ t, memWrite s a v = .ok t ∧ memRead t a = .ok v

/-- The second and third memory laws of 20_memory.md section 4, with the corner `RAM_SIZE < 3` of 90_conflicts.md C3. The
straddling write is D5, the unbounded sum D6. -/
def Obligations.RomWritesAndOutsideAccessesFail : Prop :=
  ∀ (s : State) (a v : Word),
    (a.toNat + 3 ≥ s.cfg.totalSize → memRead s a = .error .outOfBounds ∧ memWrite s a v = .error .outOfBounds) ∧
    (a.toNat + 3 < s.cfg.totalSize → a.toNat < s.cfg.romSize → memWrite s a v = .error .readOnlyViolation)

/-- Two word accesses share the bytes they overlap in, and only those: byte `k` of a word read at `n` after a store of `v` at
`a` is the byte of `v` stored there, or the old byte (20_memory.md section 1). -/
def Obligations.OverlappingAccessesShareBytes : Prop :=
  ∀ (m : Memory) (a n : Nat) (v : Word) (k : Nat), k < 4 →
    (a ≤ n + k → n + k < a + 4 →
      Word.byte (Memory.readWord (Memory.writeWord m a v) n) k = Word.byte v (n + k - a)) ∧
    (n + k < a ∨ a + 4 ≤ n + k →
      Word.byte (Memory.readWord (Memory.writeWord m a v) n) k = Word.byte (Memory.readWord m n) k)

/-- Instruction-fetch coherence (20_memory.md section 6): a store over the next instruction, in RAM, is what the very next
fetch reads, by either store. The invariant rules out states that no run reaches: a machine with `ROM_SIZE = 0` whose `pc`
wraps to the entry point (log 28). -/
def Obligations.StoreOverTheNextInstructionIsFetched : Prop :=
  ∀ (s : State) (a : RegIndex), s.Inv → a.toNat < s.nreg → s.pc.toNat % 4 = 0 → region s.cfg (s.pc + 4).toNat = .ram →
    (∀ b : RegIndex, b.toNat < s.nreg → s.reg b = s.pc + 4 →
      ∃ t, exec (.storeRegisterIndirect a b) s = .next t ∧ fetch t = .ok (s.reg a)) ∧
    (∀ n : Imm, imm32 n = s.pc + 4 →
      ∃ t, exec (.storeImmediateAddress a n) s = .next t ∧ fetch t = .ok (s.reg a))

/-- The register file's `get` and `set` (10_state.md section 1): an existing register reads back what was written and the
others are left; one that does not exist fails both ways with `InvalidRegisterIndex`. -/
def Obligations.RegisterFileChecksItsIndex : Prop :=
  ∀ (s : State) (i : RegIndex) (v : Word),
    (i.toNat < s.nreg → ∃ t, regSet s i v = .ok t ∧ regGet t i = .ok v ∧ t.nreg = s.nreg ∧
      ∀ r, r ≠ i → regGet t r = regGet s r) ∧
    (s.nreg ≤ i.toNat → regGet s i = .error .invalidRegisterIndex ∧ regSet s i v = .error .invalidRegisterIndex)

/-- A word placed at an aligned `pc` inside a region by `withFetchWord` is what the next step of a running machine runs, and
only the four bytes there have changed (the model's own way of placing a word, log 25). A machine without a first instruction
(`ROM_SIZE < 4`, R192; log 28) runs nothing at the entry point. -/
def Obligations.PlacedWordIsRunNext : Prop :=
  ∀ (s : State) (nbits w : Nat) (i : Instr), s.running → s.pc.toNat % 4 = 0 →
    region s.cfg s.pc.toNat = .rom ∨ region s.cfg s.pc.toNat = .ram → ¬ s.noFirstInstruction →
    decodeWord s.cfg.opmap (tableWord nbits w) = .ok i →
    step (s.withFetchWord nbits w) = exec i (s.withFetchWord nbits w) ∧
    sameMemoryOutside s.pc.toNat s (s.withFetchWord nbits w) ∧
    (s.withFetchWord nbits w).setMem s.mem = s

/-- A machine whose ROM does not hold a first instruction is constructed all the same, and faults in its first step, whatever its
RAM and its policy (70_reset_and_hazards.md section 1, R192). For `ROM_SIZE = 0` with RAM at the entry point, R192 over R44 is a
DESIGN CHOICE; the error's name is DEDUCED (both log 28). The registers' value 0 is D8, the expected image length D13, `pc` after
the fault D9, the latch D10. -/
def Obligations.MachineWithoutAFirstInstructionFaultsInItsFirstStep : Prop :=
  ∀ (nreg : Nat) (c : Config) (image : List Byte), c.romSize < 4 → image.length = c.romSize →
    ∃ s t, construct nreg c image = .next s ∧ step s = .next t ∧ t.endedInError ∧ t.fault = some .outOfBounds ∧
      t.pc = 0 ∧ (∀ r, t.reg r = 0) ∧ t.zf = false ∧ sameMemory s t ∧ sameConfig s t
end

