-- ==== Sys2Proof/Laws/Decode.lean ====
section
/-! SUPPORT. Words and bytes, fields and words, and what the selection of an instruction answers. -/

namespace Sys2Proof

/-! ### Bytes of a word (R41) -/

theorem Word.byte_getLsbD (v : Word) (k i : Nat) :
    (Word.byte v k).getLsbD i = (decide (i < 8) && v.getLsbD (8 * k + i)) := by
  simp [Word.byte]

/-- Reading the four bytes of a word gives the word. -/
@[simp] theorem wordOfBytes_bytes (v : Word) :
    wordOfBytes (Word.byte v 0) (Word.byte v 1) (Word.byte v 2) (Word.byte v 3) = v := by
  apply BitVec.eq_of_getLsbD_eq
  intro i hi
  simp only [wordOfBytes, BitVec.getLsbD_append, Word.byte_getLsbD]
  split
  · simp_all
  split
  · have : 8 + (i - 8) = i := by omega
    simp_all
  split
  · have : 16 + (i - 8 - 8) = i := by omega
    simp_all
  · have : 24 + (i - 8 - 8 - 8) = i := by omega
    have : i - 8 - 8 - 8 < 8 := by omega
    simp_all

/-- The number a word of four bytes stands for (R41). -/
theorem toNat_wordOfBytes (b0 b1 b2 b3 : Byte) :
    (wordOfBytes b0 b1 b2 b3).toNat =
      b0.toNat + 2 ^ 8 * b1.toNat + 2 ^ 16 * b2.toNat + 2 ^ 24 * b3.toNat := by
  have glue : ∀ {n : Nat} (x : BitVec n) (y : Byte), (x ++ y).toNat = 2 ^ 8 * x.toNat + y.toNat := by
    intro n x y
    rw [BitVec.toNat_append, ← Nat.shiftLeft_add_eq_or_of_lt y.isLt, Nat.shiftLeft_eq, Nat.mul_comm]
  rw [wordOfBytes, glue, glue, glue]
  omega

/-! ### Fields of a word (R71, R72) -/

/-- The fields of an encoded field tuple are that tuple. -/
@[simp] theorem decodeFields_encodeFields (f : Fields) : decodeFields (encodeFields f) = f := by
  obtain ⟨o, a, b, n⟩ := f
  simp only [decodeFields, encodeFields, Fields.mk.injEq]
  refine ⟨?_, ?_, ?_, ?_⟩ <;> apply BitVec.eq_of_getLsbD_eq <;> intro i hi <;>
    simp only [BitVec.getLsbD_extractLsb', BitVec.getLsbD_append]
  · have h1 : ¬ 24 + i < 16 := by omega
    have h2 : ¬ 24 + i - 16 < 4 := by omega
    have h3 : ¬ 24 + i - 16 - 4 < 4 := by omega
    have h4 : 24 + i - 16 - 4 - 4 = i := by omega
    simp [h1, h2, h3, h4, hi]
  · have h1 : ¬ 20 + i < 16 := by omega
    have h2 : ¬ 20 + i - 16 < 4 := by omega
    have h3 : 20 + i - 16 - 4 = i := by omega
    simp [h1, h2, h3, hi]
  · have h1 : ¬ 16 + i < 16 := by omega
    simp [h1, hi]
  · simp [hi]

/-! ### Selection (R22 S4, R75) -/

theorem Mnemonic.mem_all (m : Mnemonic) : m ∈ Mnemonic.all := by
  cases m <;> decide

/-- A well-formed opcode map is injective. -/
theorem OpMap.wf_injective {om : OpMap} (h : om.wf) {m n : Mnemonic} (e : om.opcodeOf m = om.opcodeOf n) : m = n :=
  List.inj_on_of_nodup_map h (Mnemonic.mem_all m) (Mnemonic.mem_all n) e

/-- A selected mnemonic has the opcode it was selected by. -/
theorem opcodeOf_of_select {om : OpMap} {o : Byte} {m : Mnemonic} (h : selectMnemonic om o = some m) :
    om.opcodeOf m = o := by
  simpa using List.find?_some h

/-- No selection: the opcode belongs to no mnemonic (R78). -/
theorem select_eq_none_iff (om : OpMap) (o : Byte) :
    selectMnemonic om o = none ↔ ∀ m, om.opcodeOf m ≠ o := by
  simp [selectMnemonic, List.find?_eq_none, Mnemonic.mem_all]

/-- Under an injective map, an opcode selects its mnemonic. -/
theorem select_opcodeOf {om : OpMap} (h : om.wf) (m : Mnemonic) :
    selectMnemonic om (om.opcodeOf m) = some m := by
  cases hs : selectMnemonic om (om.opcodeOf m) with
  | none => exact absurd rfl ((select_eq_none_iff _ _).mp hs m)
  | some n => rw [OpMap.wf_injective h (opcodeOf_of_select hs)]

/-- What a decoded word is made of: the mnemonic its opcode selects, and its fields. -/
theorem decodeWord_ok_iff (om : OpMap) (w : Word) (i : Instr) :
    decodeWord om w = .ok i ↔
      ∃ m, selectMnemonic om (decodeFields w).opcode = some m ∧ i = instrOf (decodeFields w) m := by
  unfold decodeWord
  cases selectMnemonic om (decodeFields w).opcode <;> simp [eq_comm]

/-- A word is refused exactly when its opcode belongs to no mnemonic. -/
theorem decodeWord_error_iff (om : OpMap) (w : Word) :
    (∃ e, decodeWord om w = .error e) ↔ ∀ m, om.opcodeOf m ≠ (decodeFields w).opcode := by
  rw [← select_eq_none_iff]
  unfold decodeWord
  cases selectMnemonic om (decodeFields w).opcode <;> simp

theorem instrOf_mnemonic (f : Fields) (m : Mnemonic) : (instrOf f m).mnemonic = m := by
  cases m <;> rfl

end Sys2Proof
end

