-- ==== Sys2Proof/Laws/State.lean ====
section
/-! SUPPORT. What each update of the state leaves in each field, and in each observation of the state. -/

namespace Sys2Proof.Machine

@[simp] theorem State.cfg_setPc (s : State) (p : Word) : (s.setPc p).cfg = s.cfg := rfl
@[simp] theorem State.regs_setPc (s : State) (p : Word) : (s.setPc p).regs = s.regs := rfl
@[simp] theorem State.pc_setPc (s : State) (p : Word) : (s.setPc p).pc = p := rfl
@[simp] theorem State.zf_setPc (s : State) (p : Word) : (s.setPc p).zf = s.zf := rfl
@[simp] theorem State.halted_setPc (s : State) (p : Word) : (s.setPc p).halted = s.halted := rfl
@[simp] theorem State.fault_setPc (s : State) (p : Word) : (s.setPc p).fault = s.fault := rfl
@[simp] theorem State.mem_setPc (s : State) (p : Word) : (s.setPc p).mem = s.mem := rfl

@[simp] theorem State.cfg_setZf (s : State) (z : Bool) : (s.setZf z).cfg = s.cfg := rfl
@[simp] theorem State.regs_setZf (s : State) (z : Bool) : (s.setZf z).regs = s.regs := rfl
@[simp] theorem State.pc_setZf (s : State) (z : Bool) : (s.setZf z).pc = s.pc := rfl
@[simp] theorem State.zf_setZf (s : State) (z : Bool) : (s.setZf z).zf = z := rfl
@[simp] theorem State.halted_setZf (s : State) (z : Bool) : (s.setZf z).halted = s.halted := rfl
@[simp] theorem State.fault_setZf (s : State) (z : Bool) : (s.setZf z).fault = s.fault := rfl
@[simp] theorem State.mem_setZf (s : State) (z : Bool) : (s.setZf z).mem = s.mem := rfl

@[simp] theorem State.cfg_setReg (s : State) (i : RegIndex) (v : Word) : (s.setReg i v).cfg = s.cfg := rfl
@[simp] theorem State.regs_setReg (s : State) (i : RegIndex) (v : Word) : (s.setReg i v).regs = s.regs.set i.toNat v := rfl
@[simp] theorem State.pc_setReg (s : State) (i : RegIndex) (v : Word) : (s.setReg i v).pc = s.pc := rfl
@[simp] theorem State.zf_setReg (s : State) (i : RegIndex) (v : Word) : (s.setReg i v).zf = s.zf := rfl
@[simp] theorem State.halted_setReg (s : State) (i : RegIndex) (v : Word) : (s.setReg i v).halted = s.halted := rfl
@[simp] theorem State.fault_setReg (s : State) (i : RegIndex) (v : Word) : (s.setReg i v).fault = s.fault := rfl
@[simp] theorem State.mem_setReg (s : State) (i : RegIndex) (v : Word) : (s.setReg i v).mem = s.mem := rfl

@[simp] theorem State.cfg_setMem (s : State) (m : Memory) : (s.setMem m).cfg = s.cfg := rfl
@[simp] theorem State.regs_setMem (s : State) (m : Memory) : (s.setMem m).regs = s.regs := rfl
@[simp] theorem State.pc_setMem (s : State) (m : Memory) : (s.setMem m).pc = s.pc := rfl
@[simp] theorem State.zf_setMem (s : State) (m : Memory) : (s.setMem m).zf = s.zf := rfl
@[simp] theorem State.halted_setMem (s : State) (m : Memory) : (s.setMem m).halted = s.halted := rfl
@[simp] theorem State.fault_setMem (s : State) (m : Memory) : (s.setMem m).fault = s.fault := rfl
@[simp] theorem State.mem_setMem (s : State) (m : Memory) : (s.setMem m).mem = m := rfl

@[simp] theorem State.cfg_setHalted (s : State) : (s.setHalted).cfg = s.cfg := rfl
@[simp] theorem State.regs_setHalted (s : State) : (s.setHalted).regs = s.regs := rfl
@[simp] theorem State.pc_setHalted (s : State) : (s.setHalted).pc = s.pc := rfl
@[simp] theorem State.zf_setHalted (s : State) : (s.setHalted).zf = s.zf := rfl
@[simp] theorem State.halted_setHalted (s : State) : (s.setHalted).halted = true := rfl
@[simp] theorem State.fault_setHalted (s : State) : (s.setHalted).fault = s.fault := rfl
@[simp] theorem State.mem_setHalted (s : State) : (s.setHalted).mem = s.mem := rfl

@[simp] theorem State.cfg_advance (s : State) : (s.advance).cfg = s.cfg := rfl
@[simp] theorem State.regs_advance (s : State) : (s.advance).regs = s.regs := rfl
@[simp] theorem State.pc_advance (s : State) : (s.advance).pc = s.pc + 4 := rfl
@[simp] theorem State.zf_advance (s : State) : (s.advance).zf = s.zf := rfl
@[simp] theorem State.halted_advance (s : State) : (s.advance).halted = s.halted := rfl
@[simp] theorem State.fault_advance (s : State) : (s.advance).fault = s.fault := rfl
@[simp] theorem State.mem_advance (s : State) : (s.advance).mem = s.mem := rfl

@[simp] theorem State.cfg_failed (s : State) (f : FatalError) : (s.failed f).cfg = s.cfg := rfl
@[simp] theorem State.regs_failed (s : State) (f : FatalError) : (s.failed f).regs = s.regs := rfl
@[simp] theorem State.pc_failed (s : State) (f : FatalError) : (s.failed f).pc = s.pc := rfl
@[simp] theorem State.zf_failed (s : State) (f : FatalError) : (s.failed f).zf = s.zf := rfl
@[simp] theorem State.halted_failed (s : State) (f : FatalError) : (s.failed f).halted = true := rfl
@[simp] theorem State.fault_failed (s : State) (f : FatalError) : (s.failed f).fault = some f := rfl
@[simp] theorem State.mem_failed (s : State) (f : FatalError) : (s.failed f).mem = s.mem := rfl

@[simp] theorem State.cfg_setOpmap (s : State) (om : OpMap) : (s.setOpmap om).cfg = { s.cfg with opmap := om } := rfl
@[simp] theorem State.regs_setOpmap (s : State) (om : OpMap) : (s.setOpmap om).regs = s.regs := rfl
@[simp] theorem State.pc_setOpmap (s : State) (om : OpMap) : (s.setOpmap om).pc = s.pc := rfl
@[simp] theorem State.zf_setOpmap (s : State) (om : OpMap) : (s.setOpmap om).zf = s.zf := rfl
@[simp] theorem State.halted_setOpmap (s : State) (om : OpMap) : (s.setOpmap om).halted = s.halted := rfl
@[simp] theorem State.fault_setOpmap (s : State) (om : OpMap) : (s.setOpmap om).fault = s.fault := rfl
@[simp] theorem State.mem_setOpmap (s : State) (om : OpMap) : (s.setOpmap om).mem = s.mem := rfl

/-! ### Observations -/

@[simp] theorem State.nreg_setPc (s : State) (p : Word) : (s.setPc p).nreg = s.nreg := rfl
@[simp] theorem State.reg_setPc (s : State) (p : Word) (r : RegIndex) : (s.setPc p).reg r = s.reg r := rfl
@[simp] theorem State.byteAt_setPc (s : State) (p : Word) (a : Nat) : (s.setPc p).byteAt a = s.byteAt a := rfl
@[simp] theorem State.nreg_setZf (s : State) (z : Bool) : (s.setZf z).nreg = s.nreg := rfl
@[simp] theorem State.reg_setZf (s : State) (z : Bool) (r : RegIndex) : (s.setZf z).reg r = s.reg r := rfl
@[simp] theorem State.byteAt_setZf (s : State) (z : Bool) (a : Nat) : (s.setZf z).byteAt a = s.byteAt a := rfl
@[simp] theorem State.nreg_setReg (s : State) (i : RegIndex) (v : Word) : (s.setReg i v).nreg = s.nreg := by
  simp [State.nreg]
@[simp] theorem State.byteAt_setReg (s : State) (i : RegIndex) (v : Word) (a : Nat) : (s.setReg i v).byteAt a = s.byteAt a := rfl
@[simp] theorem State.nreg_setMem (s : State) (m : Memory) : (s.setMem m).nreg = s.nreg := rfl
@[simp] theorem State.reg_setMem (s : State) (m : Memory) (r : RegIndex) : (s.setMem m).reg r = s.reg r := rfl
@[simp] theorem State.byteAt_setMem (s : State) (m : Memory) (a : Nat) : (s.setMem m).byteAt a = Memory.read m a := rfl
@[simp] theorem State.nreg_setHalted (s : State) : (s.setHalted).nreg = s.nreg := rfl
@[simp] theorem State.reg_setHalted (s : State) (r : RegIndex) : (s.setHalted).reg r = s.reg r := rfl
@[simp] theorem State.byteAt_setHalted (s : State) (a : Nat) : (s.setHalted).byteAt a = s.byteAt a := rfl
@[simp] theorem State.nreg_advance (s : State) : (s.advance).nreg = s.nreg := rfl
@[simp] theorem State.reg_advance (s : State) (r : RegIndex) : (s.advance).reg r = s.reg r := rfl
@[simp] theorem State.byteAt_advance (s : State) (a : Nat) : (s.advance).byteAt a = s.byteAt a := rfl
@[simp] theorem State.nreg_failed (s : State) (f : FatalError) : (s.failed f).nreg = s.nreg := rfl
@[simp] theorem State.reg_failed (s : State) (f : FatalError) (r : RegIndex) : (s.failed f).reg r = s.reg r := rfl
@[simp] theorem State.byteAt_failed (s : State) (f : FatalError) (a : Nat) : (s.failed f).byteAt a = s.byteAt a := rfl
@[simp] theorem State.nreg_setOpmap (s : State) (om : OpMap) : (s.setOpmap om).nreg = s.nreg := rfl
@[simp] theorem State.reg_setOpmap (s : State) (om : OpMap) (r : RegIndex) : (s.setOpmap om).reg r = s.reg r := rfl
@[simp] theorem State.byteAt_setOpmap (s : State) (om : OpMap) (a : Nat) : (s.setOpmap om).byteAt a = s.byteAt a := rfl

/-- An existing register reads back what was written to it. -/
theorem State.reg_setReg_self (s : State) (i : RegIndex) (v : Word) (h : i.toNat < s.nreg) :
    (s.setReg i v).reg i = v := by
  simp [State.reg, List.getD_eq_getElem?_getD, List.getElem?_set_self h]

/-- Writing a register leaves the others. -/
theorem State.reg_setReg_of_ne (s : State) (i r : RegIndex) (v : Word) (h : r ≠ i) :
    (s.setReg i v).reg r = s.reg r := by
  have hne : i.toNat ≠ r.toNat := fun e => h (BitVec.eq_of_toNat_eq e.symm)
  simp [State.reg, List.getD_eq_getElem?_getD, List.getElem?_set_ne hne]

/-- Two register files of one length, at most 16, that read the same everywhere are equal. -/
theorem State.regs_ext (s t : State) (hn : t.nreg = s.nreg) (h16 : s.nreg ≤ 16)
    (h : ∀ r, t.reg r = s.reg r) : t.regs = s.regs := by
  apply List.ext_getElem hn
  intro k hk hk'
  have hlt : k < s.nreg := hk'
  have hk16 : k % 16 = k := Nat.mod_eq_of_lt (by omega)
  have := h (BitVec.ofNat 4 k)
  simpa [State.reg, BitVec.toNat_ofNat, hk16, List.getD_eq_getElem?_getD, hk, hk'] using this

/-- `pc + 4` as a number (R15). -/
theorem State.toNat_pc_advance (s : State) : s.advance.pc.toNat = (s.pc.toNat + 4) % 2 ^ 32 := by
  simp [BitVec.toNat_add]

end Sys2Proof.Machine
end

