-- ==== Sys2Proof/Laws/Memory.lean ====
section
/-! SUPPORT. Memory: what a byte reads as after each operation, and that every operation keeps the canonical form. -/

namespace Sys2Proof.Machine

/-! ### Reading after an operation -/

@[simp] theorem Memory.read_nil (a : Nat) : Memory.read [] a = Memory.unlisted := rfl

theorem Memory.read_cons (k : Nat) (b : Byte) (m : Memory) (a : Nat) :
    Memory.read ((k, b) :: m) a = if k = a then b else Memory.read m a := rfl

/-- An address with no entry reads as the unlisted byte. -/
theorem Memory.read_of_not_listed (m : Memory) (a : Nat) (h : ∀ c ∈ m, c.1 ≠ a) :
    Memory.read m a = Memory.unlisted := by
  induction m with
  | nil => rfl
  | cons c m ih =>
    rw [Memory.read_cons, if_neg (h c (by simp))]
    exact ih fun d hd => h d (by simp [hd])

theorem Memory.read_erase (m : Memory) (a n : Nat) :
    Memory.read (Memory.erase m a) n = if n = a then Memory.unlisted else Memory.read m n := by
  induction m with
  | nil => simp [Memory.erase]
  | cons c m ih =>
    obtain ⟨k, b⟩ := c
    by_cases hk : k = a
    · have he : Memory.erase ((k, b) :: m) a = Memory.erase m a := by simp [Memory.erase, hk]
      rw [he, ih, Memory.read_cons]
      by_cases hn : n = a
      · simp [hn]
      · have : k ≠ n := fun e => hn (e.symm.trans hk)
        simp [hn, this]
    · have he : Memory.erase ((k, b) :: m) a = (k, b) :: Memory.erase m a := by
        simp [Memory.erase, hk]
      rw [he, Memory.read_cons, Memory.read_cons, ih]
      by_cases hn : n = a
      · have : k ≠ n := fun e => hk (e.trans hn)
        simp [hn, hk]
      · simp [hn]

theorem Memory.read_insert (m : Memory) (a n : Nat) (b : Byte) (h : Memory.read m a = Memory.unlisted ∧ ∀ c ∈ m, c.1 ≠ a) :
    Memory.read (Memory.insert m a b) n = if n = a then b else Memory.read m n := by
  induction m with
  | nil =>
    rw [Memory.insert, Memory.read_cons]
    by_cases hn : n = a
    · simp [hn]
    · have : a ≠ n := fun e => hn e.symm
      simp [hn, this]
  | cons c m ih =>
    obtain ⟨k, d⟩ := c
    have hka : k ≠ a := h.2 (k, d) (by simp)
    have hm : ∀ c ∈ m, c.1 ≠ a := fun c hc => h.2 c (by simp [hc])
    have ih := ih ⟨Memory.read_of_not_listed m a hm, hm⟩
    rw [Memory.insert]
    split
    · rw [Memory.read_cons]
      by_cases hn : n = a
      · simp [hn]
      · have : a ≠ n := fun e => hn e.symm
        simp [hn, this]
    · rw [Memory.read_cons, Memory.read_cons, ih]
      by_cases hn : n = a
      · have : k ≠ n := fun e => hka (e.trans hn)
        simp [hn, hka]
      · simp [hn]

theorem Memory.mem_erase {m : Memory} {a : Nat} {c : Host.Cell} :
    c ∈ Memory.erase m a ↔ c ∈ m ∧ c.1 ≠ a := by
  simp [Memory.erase]

/-- A write is read back at its address and nowhere else, whatever the memory holds. -/
theorem Memory.read_write (m : Memory) (a n : Nat) (b : Byte) :
    Memory.read (Memory.write m a b) n = if n = a then b else Memory.read m n := by
  rw [Memory.write]
  split
  · rename_i hb
    rw [Memory.read_erase, hb]
  · rw [Memory.read_insert _ _ _ _ ⟨by simp [Memory.read_erase], fun c hc => (Memory.mem_erase.mp hc).2⟩,
      Memory.read_erase]
    by_cases hn : n = a <;> simp [hn]

/-- Byte `k` of a stored word lies `k` addresses up; every other address is left (R41). -/
theorem Memory.read_writeWord (m : Memory) (a n : Nat) (v : Word) :
    Memory.read (Memory.writeWord m a v) n =
      if a ≤ n ∧ n < a + 4 then Word.byte v (n - a) else Memory.read m n := by
  simp only [Memory.writeWord, Memory.read_write]
  by_cases h3 : n = a + 3
  · subst h3; simp
  by_cases h2 : n = a + 2
  · subst h2; simp
  by_cases h1 : n = a + 1
  · subst h1; simp
  by_cases h0 : n = a
  · subst h0; simp
  have : ¬ (a ≤ n ∧ n < a + 4) := by omega
  simp [h3, h2, h1, h0, this]

/-! ### The canonical form -/

theorem Memory.erase_wf {m : Memory} (h : Memory.wf m) (a : Nat) : Memory.wf (Memory.erase m a) :=
  ⟨h.1.filter _, fun c hc => h.2 c (Memory.mem_erase.mp hc).1⟩

theorem Memory.mem_insert {m : Memory} {a : Nat} {b : Byte} {c : Host.Cell} :
    c ∈ Memory.insert m a b ↔ c = (a, b) ∨ c ∈ m := by
  induction m with
  | nil => simp [Memory.insert]
  | cons d m ih =>
    rw [Memory.insert]
    split
    · simp
    · simp only [List.mem_cons, ih]
      tauto

theorem Memory.insert_wf {m : Memory} (h : Memory.wf m) (a : Nat) (b : Byte)
    (hb : b ≠ Memory.unlisted) (ha : ∀ c ∈ m, c.1 ≠ a) : Memory.wf (Memory.insert m a b) := by
  constructor
  · induction m with
    | nil => simp [Memory.insert]
    | cons d m ih =>
      have hp := List.pairwise_cons.mp h.1
      rw [Memory.insert]
      split
      · rename_i hlt
        refine List.pairwise_cons.mpr ⟨fun c hc => ?_, h.1⟩
        obtain rfl | hc := List.mem_cons.mp hc
        · exact hlt
        · exact lt_trans hlt (hp.1 c hc)
      · rename_i hge
        have hne : d.1 ≠ a := ha d (by simp)
        refine List.pairwise_cons.mpr
          ⟨fun c hc => ?_, ih ⟨hp.2, fun c hc => h.2 c (by simp [hc])⟩ (fun c hc => ha c (by simp [hc]))⟩
        obtain rfl | hc := Memory.mem_insert.mp hc
        · change d.1 < a
          omega
        · exact hp.1 c hc
  · intro c hc
    obtain rfl | hc := Memory.mem_insert.mp hc
    · exact hb
    · exact h.2 c hc

theorem Memory.write_wf {m : Memory} (h : Memory.wf m) (a : Nat) (b : Byte) :
    Memory.wf (Memory.write m a b) := by
  rw [Memory.write]
  split
  · exact Memory.erase_wf h a
  · rename_i hb
    exact Memory.insert_wf (Memory.erase_wf h a) a b hb fun c hc => (Memory.mem_erase.mp hc).2

theorem Memory.writeWord_wf {m : Memory} (h : Memory.wf m) (a : Nat) (v : Word) :
    Memory.wf (Memory.writeWord m a v) :=
  Memory.write_wf (Memory.write_wf (Memory.write_wf (Memory.write_wf h _ _) _ _) _ _) _ _

theorem Memory.nil_wf : Memory.wf [] := ⟨List.Pairwise.nil, by simp⟩

/-- The memory of `State.reset` is in canonical form. -/
theorem Memory.reset_wf : Memory.wf State.reset.mem := Memory.nil_wf

/-! ### Which addresses are listed -/

theorem Memory.listed_write {m : Memory} {n : Nat} (h : ∀ c ∈ m, c.1 < n) {a : Nat} (ha : a < n) (b : Byte) :
    ∀ c ∈ Memory.write m a b, c.1 < n := by
  intro c hc
  rw [Memory.write] at hc
  split at hc
  · exact h c (Memory.mem_erase.mp hc).1
  · obtain rfl | hc := Memory.mem_insert.mp hc
    · exact ha
    · exact h c (Memory.mem_erase.mp hc).1

theorem Memory.listed_writeWord {m : Memory} {n : Nat} (h : ∀ c ∈ m, c.1 < n) {a : Nat} (ha : a + 3 < n)
    (v : Word) : ∀ c ∈ Memory.writeWord m a v, c.1 < n :=
  Memory.listed_write (Memory.listed_write (Memory.listed_write (Memory.listed_write h (by omega) _)
    (by omega) _) (by omega) _) (by omega) _

/-! ### An image -/

theorem Memory.listed_ofImage (image : List Byte) (a : Nat) :
    ∀ c ∈ Memory.ofImage image a, a ≤ c.1 ∧ c.1 < a + image.length ∧ c.2 ≠ Memory.unlisted := by
  induction image generalizing a with
  | nil => simp [Memory.ofImage]
  | cons b bs ih =>
    intro c hc
    have hlen : (b :: bs).length = bs.length + 1 := rfl
    rw [Memory.ofImage] at hc
    split at hc
    · obtain ⟨h1, h2, h3⟩ := ih (a + 1) c hc
      exact ⟨by omega, by omega, h3⟩
    · rename_i hb
      obtain rfl | hc := List.mem_cons.mp hc
      · exact ⟨le_refl a, by simp [hlen], hb⟩
      · obtain ⟨h1, h2, h3⟩ := ih (a + 1) c hc
        exact ⟨by omega, by omega, h3⟩

theorem Memory.ofImage_wf (image : List Byte) (a : Nat) : Memory.wf (Memory.ofImage image a) := by
  refine ⟨?_, fun c hc => (Memory.listed_ofImage image a c hc).2.2⟩
  induction image generalizing a with
  | nil => exact List.Pairwise.nil
  | cons b bs ih =>
    rw [Memory.ofImage]
    split
    · exact ih (a + 1)
    · refine List.pairwise_cons.mpr ⟨fun c hc => ?_, ih (a + 1)⟩
      have := (Memory.listed_ofImage bs (a + 1) c hc).1
      change a < c.1
      omega

/-- An image reads back byte by byte; every other address reads as the unlisted byte (R190). -/
theorem Memory.read_ofImage (image : List Byte) (a n : Nat) :
    Memory.read (Memory.ofImage image a) n =
      if a ≤ n then image.getD (n - a) Memory.unlisted else Memory.unlisted := by
  induction image generalizing a with
  | nil => simp [Memory.ofImage]
  | cons b bs ih =>
    have key : Memory.read (Memory.ofImage (b :: bs) a) n =
        if n = a then b else Memory.read (Memory.ofImage bs (a + 1)) n := by
      rw [Memory.ofImage]
      split
      · rename_i hb
        by_cases hn : n = a
        · subst hn
          rw [ih]
          simp [hb]
        · simp [hn]
      · rw [Memory.read_cons]
        by_cases hn : n = a
        · simp [hn]
        · have : a ≠ n := fun e => hn e.symm
          simp [hn, this]
    rw [key, ih]
    by_cases hn : n = a
    · subst hn; simp
    · by_cases hle : a ≤ n
      · obtain ⟨k, rfl⟩ : ∃ k, n = a + 1 + k := ⟨n - (a + 1), by omega⟩
        have h1 : a + 1 + k - a = k + 1 := by omega
        simp [hn, hle, h1]
      · have : ¬ a + 1 ≤ n := by omega
        simp [hn, hle, this]

end Sys2Proof.Machine
end

