-- ==== Sys2Proof/Laws/Ops.lean ====
section
/-! SUPPORT. What each shared operation of the machine can answer, said once. -/

namespace Sys2Proof.Machine

/-! ### The register file (R12, R22 S5) -/

@[simp] theorem regGet_of_lt {s : State} {i : RegIndex} (h : i.toNat < s.nreg) : regGet s i = .ok (s.reg i) := by
  simp [regGet, h]

@[simp] theorem regSet_of_lt {s : State} {i : RegIndex} (h : i.toNat < s.nreg) (v : Word) :
    regSet s i v = .ok (s.setReg i v) := by
  simp [regSet, h]

theorem checkRegs_eq (s : State) (used : List RegIndex) :
    checkRegs s used =
      if (∀ r ∈ used, r.toNat < s.nreg) then .ok () else .error .invalidRegisterIndex := rfl

/-! ### Regions (R44) -/

theorem region_outside_iff (c : Config) (a : Nat) : region c a = .outside ↔ c.totalSize ≤ a + 3 := by
  unfold region; split_ifs <;> simp <;> omega

theorem region_rom_iff (c : Config) (a : Nat) : region c a = .rom ↔ a + 3 < c.romSize := by
  unfold region Config.totalSize; split_ifs <;> simp <;> omega

theorem region_ram_iff (c : Config) (a : Nat) :
    region c a = .ram ↔ c.romSize ≤ a ∧ a + 3 < c.totalSize := by
  unfold region; split_ifs <;> simp <;> omega

theorem region_straddle_iff (c : Config) (a : Nat) :
    region c a = .straddle ↔ a < c.romSize ∧ c.romSize ≤ a + 3 ∧ a + 3 < c.totalSize := by
  unfold region; split_ifs <;> simp <;> omega

/-- The machines that have RAM at the entry point, where R44 and R192 differ: those of log 28, and no other. -/
theorem region_zero_ram_iff (c : Config) : region c 0 = .ram ↔ c.romSize = 0 ∧ 4 ≤ c.ramSize := by
  rw [region_ram_iff, Config.totalSize]; omega

/-! ### The memory controller (R46, R47) -/

/-- What a read answers: the word inside a region, `OutOfBounds` elsewhere. -/
theorem memRead_eq (s : State) (a : Word) :
    memRead s a =
      if region s.cfg a.toNat = .rom ∨ region s.cfg a.toNat = .ram
      then .ok (Memory.readWord s.mem a.toNat) else .error .outOfBounds := by
  unfold memRead
  cases region s.cfg a.toNat <;> simp

/-- What a write answers: the stored word in RAM, `OutOfBounds` outside, `ReadOnlyViolation` elsewhere. -/
theorem memWrite_eq (s : State) (a v : Word) :
    memWrite s a v =
      if region s.cfg a.toNat = .ram then .ok (s.setMem (Memory.writeWord s.mem a.toNat v))
      else if region s.cfg a.toNat = .outside then .error .outOfBounds
      else .error .readOnlyViolation := by
  unfold memWrite
  cases region s.cfg a.toNat <;> simp

/-- The ways a read can end. -/
theorem memRead_cases (s : State) (a : Word) :
    ((region s.cfg a.toNat = .rom ∨ region s.cfg a.toNat = .ram) ∧
      memRead s a = .ok (Memory.readWord s.mem a.toNat)) ∨
    ((region s.cfg a.toNat = .outside ∨ region s.cfg a.toNat = .straddle) ∧ memRead s a = .error .outOfBounds) := by
  rw [memRead_eq]
  cases region s.cfg a.toNat <;> simp

/-- The ways a write can end. -/
theorem memWrite_cases (s : State) (a v : Word) :
    (region s.cfg a.toNat = .ram ∧ memWrite s a v = .ok (s.setMem (Memory.writeWord s.mem a.toNat v))) ∨
    (region s.cfg a.toNat = .outside ∧ memWrite s a v = .error .outOfBounds) ∨
    ((region s.cfg a.toNat = .rom ∨ region s.cfg a.toNat = .straddle) ∧
      memWrite s a v = .error .readOnlyViolation) := by
  rw [memWrite_eq]
  cases region s.cfg a.toNat <;> simp

/-- A stored word is read back at its address. -/
theorem Memory.readWord_writeWord_self (m : Memory) (a : Nat) (v : Word) :
    Memory.readWord (Memory.writeWord m a v) a = v := by
  have h : ∀ k, k < 4 → Memory.read (Memory.writeWord m a v) (a + k) = Word.byte v k := by
    intro k hk
    rw [Memory.read_writeWord, if_pos (by omega)]
    simp
  have h0 := h 0 (by omega)
  rw [Nat.add_zero] at h0
  rw [Memory.readWord, h0, h 1 (by omega), h 2 (by omega), h 3 (by omega), wordOfBytes_bytes]

/-! ### Ending a step -/

@[simp] theorem finish_ok (s t : State) : finish s (.ok t) = .next t := rfl

@[simp] theorem finish_error (s : State) (f : FatalError) : finish s (.error f) = .next (s.failed f) := rfl

/-! ### The shapes of instruction: what each answers -/

/-- Stage S5 and the reading of the operand together. -/
theorem Operand.value_of_used {s : State} {o : Operand} (h : ∀ r ∈ o.used, r.toNat < s.nreg) :
    o.value s = .ok (o.word s) := by
  cases o with
  | reg b => exact regGet_of_lt (h b (by simp [Operand.used]))
  | imm n => rfl

/-- An update of a register completes when the used registers exist, and raises `InvalidRegisterIndex` otherwise. -/
theorem updateReg_eq (f : Word → Word → Word) (a : RegIndex) (o : Operand) (s : State) :
    updateReg f a o s =
      if (∀ r ∈ a :: o.used, r.toNat < s.nreg) then .next (s.setReg a (f (s.reg a) (o.word s))).advance
      else .next (s.failed .invalidRegisterIndex) := by
  unfold updateReg
  rw [checkRegs_eq]
  split
  · rename_i h
    obtain ⟨ha, ho⟩ := List.forall_mem_cons.mp h
    simp [Operand.value_of_used ho, ha, bind, Except.bind, pure, Except.pure]
  · simp [bind, Except.bind]

/-- An assignment to a register completes when the used registers exist. -/
theorem assignReg_eq (a : RegIndex) (o : Operand) (s : State) :
    assignReg a o s =
      if (∀ r ∈ a :: o.used, r.toNat < s.nreg) then .next (s.setReg a (o.word s)).advance
      else .next (s.failed .invalidRegisterIndex) := by
  unfold assignReg
  rw [checkRegs_eq]
  split
  · rename_i h
    obtain ⟨ha, ho⟩ := List.forall_mem_cons.mp h
    simp [Operand.value_of_used ho, ha, bind, Except.bind, pure, Except.pure]
  · simp [bind, Except.bind]

/-- A load: the register check, then the read at the operand's value, then the register write. -/
theorem loadReg_eq (a : RegIndex) (o : Operand) (s : State) :
    loadReg a o s =
      if (∀ r ∈ a :: o.used, r.toNat < s.nreg) then
        match memRead s (o.word s) with
        | .ok v => .next (s.setReg a v).advance
        | .error f => .next (s.failed f)
      else .next (s.failed .invalidRegisterIndex) := by
  unfold loadReg
  rw [checkRegs_eq]
  split
  · rename_i h
    obtain ⟨ha, ho⟩ := List.forall_mem_cons.mp h
    simp only [Operand.value_of_used ho, bind, Except.bind]
    cases memRead s (o.word s) <;> simp [ha, pure, Except.pure]
  · simp [bind, Except.bind]

/-- A store: the register check, then the write of the register at the operand's value. -/
theorem storeReg_eq (a : RegIndex) (o : Operand) (s : State) :
    storeReg a o s =
      if (∀ r ∈ a :: o.used, r.toNat < s.nreg) then
        match memWrite s (o.word s) (s.reg a) with
        | .ok t => .next t.advance
        | .error f => .next (s.failed f)
      else .next (s.failed .invalidRegisterIndex) := by
  unfold storeReg
  rw [checkRegs_eq]
  split
  · rename_i h
    obtain ⟨ha, ho⟩ := List.forall_mem_cons.mp h
    simp only [Operand.value_of_used ho, regGet_of_lt ha, bind, Except.bind]
    cases memWrite s (o.word s) (s.reg a) <;> simp [pure, Except.pure]
  · simp [bind, Except.bind]

/-- A compare writes `ZF` and advances when both registers exist. -/
theorem compareRegs_eq (a b : RegIndex) (s : State) :
    compareRegs a b s =
      if a.toNat < s.nreg ∧ b.toNat < s.nreg then .next (s.setZf (s.reg a == s.reg b)).advance
      else .next (s.failed .invalidRegisterIndex) := by
  unfold compareRegs
  rw [checkRegs_eq]
  by_cases h : a.toNat < s.nreg ∧ b.toNat < s.nreg
  · simp [h, zfOfCompare, bind, Except.bind, pure, Except.pure]
  · simp [h, bind, Except.bind]

/-- A jump writes `pc` and nothing else. -/
theorem jumpWhen_eq (taken : Bool) (target : Imm) (s : State) :
    jumpWhen taken target s = .next (if taken then s.setPc (imm32 target) else s.advance) := rfl

@[simp] theorem toNat_imm32 (n : Imm) : (imm32 n).toNat = n.toNat := by
  have := n.isLt
  simp [imm32]
  omega

/-! ### The fetch (R22 S1, S2) -/

theorem pc_low_bits_zero_iff (p : Word) : p.extractLsb' 0 2 = 0 ↔ p.toNat % 4 = 0 := by
  rw [← BitVec.toNat_inj]
  simp [BitVec.extractLsb'_toNat]

/-- What a fetch answers: `MisalignedFetch` first, then `OutOfBounds` where there is no first instruction, then the read. -/
theorem fetch_eq (s : State) :
    fetch s =
      if s.pc.toNat % 4 = 0 then
        if s.noFirstInstruction then .error .outOfBounds else memRead s s.pc
      else .error .misalignedFetch := by
  unfold fetch
  simp only [pc_low_bits_zero_iff]

/-- A fetch that succeeds: the word at an aligned `pc` inside a region, of a machine that has a first instruction or is past
the entry point. -/
theorem fetch_ok_iff (s : State) (w : Word) :
    fetch s = .ok w ↔
      s.pc.toNat % 4 = 0 ∧ ¬ s.noFirstInstruction ∧
      (region s.cfg s.pc.toNat = .rom ∨ region s.cfg s.pc.toNat = .ram) ∧ Memory.readWord s.mem s.pc.toNat = w := by
  rw [fetch_eq, memRead_eq]
  split_ifs <;> simp_all

end Sys2Proof.Machine
end

