-- ==== Sys2Proof/Laws/PerInstr.lean ====
section
/-! SUPPORT. Statements about every instruction, one lemma per constructor. -/

namespace Sys2Proof.Laws

/-- The encoder writes the mnemonic's opcode, each used field, and 0 in every ignored field (R75, R76, R81). -/
def EncodedFields.Statement (i : Instr) : Prop :=
  ∀ om : OpMap, decodeFields (encode om i) =
    ⟨om.opcodeOf i.mnemonic, i.fieldA.getD 0, i.fieldB.getD 0, i.fieldImm.getD 0⟩

theorem EncodedFields.moveRegister (a b : RegIndex) : EncodedFields.Statement (.moveRegister a b) :=
  fun _ => decodeFields_encodeFields _

theorem EncodedFields.moveImmediate (a : RegIndex) (imm : Imm) : EncodedFields.Statement (.moveImmediate a imm) :=
  fun _ => decodeFields_encodeFields _

theorem EncodedFields.addRegister (a b : RegIndex) : EncodedFields.Statement (.addRegister a b) :=
  fun _ => decodeFields_encodeFields _

theorem EncodedFields.addImmediate (a : RegIndex) (imm : Imm) : EncodedFields.Statement (.addImmediate a imm) :=
  fun _ => decodeFields_encodeFields _

theorem EncodedFields.subRegister (a b : RegIndex) : EncodedFields.Statement (.subRegister a b) :=
  fun _ => decodeFields_encodeFields _

theorem EncodedFields.subImmediate (a : RegIndex) (imm : Imm) : EncodedFields.Statement (.subImmediate a imm) :=
  fun _ => decodeFields_encodeFields _

theorem EncodedFields.andRegister (a b : RegIndex) : EncodedFields.Statement (.andRegister a b) :=
  fun _ => decodeFields_encodeFields _

theorem EncodedFields.andImmediate (a : RegIndex) (imm : Imm) : EncodedFields.Statement (.andImmediate a imm) :=
  fun _ => decodeFields_encodeFields _

theorem EncodedFields.orRegister (a b : RegIndex) : EncodedFields.Statement (.orRegister a b) :=
  fun _ => decodeFields_encodeFields _

theorem EncodedFields.orImmediate (a : RegIndex) (imm : Imm) : EncodedFields.Statement (.orImmediate a imm) :=
  fun _ => decodeFields_encodeFields _

theorem EncodedFields.shiftRightImmediate (a : RegIndex) (imm : Imm) : EncodedFields.Statement (.shiftRightImmediate a imm) :=
  fun _ => decodeFields_encodeFields _

theorem EncodedFields.shiftLeftImmediate (a : RegIndex) (imm : Imm) : EncodedFields.Statement (.shiftLeftImmediate a imm) :=
  fun _ => decodeFields_encodeFields _

theorem EncodedFields.compare (a b : RegIndex) : EncodedFields.Statement (.compare a b) :=
  fun _ => decodeFields_encodeFields _

theorem EncodedFields.jump (imm : Imm) : EncodedFields.Statement (.jump imm) :=
  fun _ => decodeFields_encodeFields _

theorem EncodedFields.jumpIfZero (imm : Imm) : EncodedFields.Statement (.jumpIfZero imm) :=
  fun _ => decodeFields_encodeFields _

theorem EncodedFields.jumpIfNotZero (imm : Imm) : EncodedFields.Statement (.jumpIfNotZero imm) :=
  fun _ => decodeFields_encodeFields _

theorem EncodedFields.loadRegisterIndirect (a b : RegIndex) : EncodedFields.Statement (.loadRegisterIndirect a b) :=
  fun _ => decodeFields_encodeFields _

theorem EncodedFields.loadImmediateAddress (a : RegIndex) (imm : Imm) : EncodedFields.Statement (.loadImmediateAddress a imm) :=
  fun _ => decodeFields_encodeFields _

theorem EncodedFields.storeRegisterIndirect (a b : RegIndex) : EncodedFields.Statement (.storeRegisterIndirect a b) :=
  fun _ => decodeFields_encodeFields _

theorem EncodedFields.storeImmediateAddress (a : RegIndex) (imm : Imm) : EncodedFields.Statement (.storeImmediateAddress a imm) :=
  fun _ => decodeFields_encodeFields _

theorem EncodedFields.halt : EncodedFields.Statement .halt :=
  fun _ => decodeFields_encodeFields _

theorem EncodedFields.noOp : EncodedFields.Statement .noOp :=
  fun _ => decodeFields_encodeFields _

end Sys2Proof.Laws
end

