-- ==== Sys2Proof/Laws/Step.lean ====
section
/-! SUPPORT. What one instruction and one step can answer. -/

namespace Sys2Proof.Machine

/-- The ways an instruction can change the state. -/
inductive Effect (i : Instr) (s : State) : State → Prop
  /-- A register write and the advance of `pc`. -/
  | reg (a : RegIndex) (v : Word) (hd : i.destination = some a) : Effect i s (s.setReg a v).advance
  /-- A `compare`. -/
  | compare (a b : RegIndex) (hi : i = .compare a b) : Effect i s (s.setZf (s.reg a == s.reg b)).advance
  /-- A store of one word to RAM. -/
  | store (addr v : Word) (hi : storeAddress s i = some addr) (hr : region s.cfg addr.toNat = .ram) :
      Effect i s (s.setMem (Memory.writeWord s.mem addr.toNat v)).advance
  /-- A taken jump. -/
  | jump (target : Imm)
      (hi : i = .jump target ∨ (i = .jumpIfZero target ∧ s.zf = true) ∨ (i = .jumpIfNotZero target ∧ s.zf = false)) :
      Effect i s (s.setPc (imm32 target))
  /-- Only `pc` advances: a jump not taken, or `no-op`. -/
  | advance
      (hi : i = .noOp ∨ ∃ n, (i = .jumpIfZero n ∧ s.zf = false) ∨ (i = .jumpIfNotZero n ∧ s.zf = true)) :
      Effect i s s.advance
  /-- `halt`. -/
  | halt (hi : i = .halt) : Effect i s s.setHalted
  /-- A fatal error of stages S5 and S6. -/
  | failed (f : FatalError)
      (hf : f = .invalidRegisterIndex ∨ f = .outOfBounds ∨ f = .readOnlyViolation) : Effect i s (s.failed f)

theorem Effect.of_updateReg {i : Instr} {s : State} (f : Word → Word → Word) (a : RegIndex) (o : Operand)
    (hd : i.destination = some a) : ∃ t, updateReg f a o s = .next t ∧ Effect i s t := by
  rw [updateReg_eq]
  split
  · exact ⟨_, rfl, .reg a _ hd⟩
  · exact ⟨_, rfl, .failed _ (.inl rfl)⟩

theorem Effect.of_assignReg {i : Instr} {s : State} (a : RegIndex) (o : Operand)
    (hd : i.destination = some a) : ∃ t, assignReg a o s = .next t ∧ Effect i s t := by
  rw [assignReg_eq]
  split
  · exact ⟨_, rfl, .reg a _ hd⟩
  · exact ⟨_, rfl, .failed _ (.inl rfl)⟩

theorem Effect.of_loadReg {i : Instr} {s : State} (a : RegIndex) (o : Operand)
    (hd : i.destination = some a) : ∃ t, loadReg a o s = .next t ∧ Effect i s t := by
  rw [loadReg_eq]
  split
  · obtain ⟨-, h⟩ | ⟨-, h⟩ := memRead_cases s (o.word s) <;> rw [h]
    · exact ⟨_, rfl, .reg a _ hd⟩
    · exact ⟨_, rfl, .failed _ (.inr (.inl rfl))⟩
  · exact ⟨_, rfl, .failed _ (.inl rfl)⟩

theorem Effect.of_storeReg {i : Instr} {s : State} (a : RegIndex) (o : Operand)
    (hi : storeAddress s i = some (o.word s)) :
    ∃ t, storeReg a o s = .next t ∧ Effect i s t := by
  rw [storeReg_eq]
  split
  · obtain ⟨hr, h⟩ | ⟨-, h⟩ | ⟨-, h⟩ := memWrite_cases s (o.word s) (s.reg a) <;> rw [h]
    · exact ⟨_, rfl, .store _ _ hi hr⟩
    · exact ⟨_, rfl, .failed _ (.inr (.inl rfl))⟩
    · exact ⟨_, rfl, .failed _ (.inr (.inr rfl))⟩
  · exact ⟨_, rfl, .failed _ (.inl rfl)⟩

/-- Every instruction, in every state, answers a next state, reached in one of the ways of `Effect`. -/
theorem exec_effect (i : Instr) (s : State) : ∃ t, exec i s = .next t ∧ Effect i s t := by
  cases i with
  | moveRegister a b => exact Effect.of_assignReg a (.reg b) rfl
  | moveImmediate a n => exact Effect.of_assignReg a (.imm n) rfl
  | addRegister a b => exact Effect.of_updateReg _ a (.reg b) rfl
  | addImmediate a n => exact Effect.of_updateReg _ a (.imm n) rfl
  | subRegister a b => exact Effect.of_updateReg _ a (.reg b) rfl
  | subImmediate a n => exact Effect.of_updateReg _ a (.imm n) rfl
  | andRegister a b => exact Effect.of_updateReg _ a (.reg b) rfl
  | andImmediate a n => exact Effect.of_updateReg _ a (.imm n) rfl
  | orRegister a b => exact Effect.of_updateReg _ a (.reg b) rfl
  | orImmediate a n => exact Effect.of_updateReg _ a (.imm n) rfl
  | shiftRightImmediate a n => exact Effect.of_updateReg _ a (.imm n) rfl
  | shiftLeftImmediate a n => exact Effect.of_updateReg _ a (.imm n) rfl
  | compare a b =>
    change ∃ t, compareRegs a b s = .next t ∧ _
    rw [compareRegs_eq]
    split
    · exact ⟨_, rfl, .compare a b rfl⟩
    · exact ⟨_, rfl, .failed _ (.inl rfl)⟩
  | jump n => exact ⟨_, rfl, .jump n (.inl rfl)⟩
  | jumpIfZero n =>
    change ∃ t, jumpWhen s.zf n s = .next t ∧ _
    rw [jumpWhen_eq]
    cases hz : s.zf
    · exact ⟨_, rfl, .advance (.inr ⟨n, .inl ⟨rfl, hz⟩⟩)⟩
    · exact ⟨_, rfl, .jump n (.inr (.inl ⟨rfl, hz⟩))⟩
  | jumpIfNotZero n =>
    change ∃ t, jumpWhen (!s.zf) n s = .next t ∧ _
    rw [jumpWhen_eq]
    cases hz : s.zf
    · exact ⟨_, rfl, .jump n (.inr (.inr ⟨rfl, hz⟩))⟩
    · exact ⟨_, rfl, .advance (.inr ⟨n, .inr ⟨rfl, hz⟩⟩)⟩
  | loadRegisterIndirect a b => exact Effect.of_loadReg a (.reg b) rfl
  | loadImmediateAddress a n => exact Effect.of_loadReg a (.imm n) rfl
  | storeRegisterIndirect a b => exact Effect.of_storeReg a (.reg b) rfl
  | storeImmediateAddress a n => exact Effect.of_storeReg a (.imm n) rfl
  | halt => exact ⟨_, rfl, .halt rfl⟩
  | noOp => exact ⟨_, rfl, .advance (.inl rfl)⟩

/-- What a step of a running machine can be: the instruction at `pc`, a fatal error before one is selected, or, under the
policy `hang`, nothing. -/
inductive StepCase (s : State) : Host.Outcome State Fault Refusal → Prop
  | halted (h : s.halted = true) : StepCase s (.next s)
  | run (i : Instr) (h : s.halted = false) (hc : s.current = some i) : StepCase s (exec i s)
  | failed (f : FatalError) (h : s.halted = false) (hc : s.current = none)
      (hf : f = .misalignedFetch ∨ f = .outOfBounds ∨ f = .invalidOpcode) : StepCase s (.next (s.failed f))
  | hang (h : s.halted = false) (hc : s.current = none) (hp : s.cfg.unknownOpcode = .hang) : StepCase s (.next s)

theorem fetch_error {s : State} {f : FatalError} (h : fetch s = .error f) :
    f = .misalignedFetch ∨ f = .outOfBounds := by
  rw [fetch_eq, memRead_eq] at h
  split_ifs at h <;> cases h <;> simp

theorem step_cases (s : State) : StepCase s (step s) := by
  unfold step
  cases hh : s.halted with
  | true => exact .halted hh
  | false =>
    rw [if_neg Bool.false_ne_true]
    cases hf : fetch s with
    | error f => exact .failed f hh (by simp [State.current, hf]) ((fetch_error hf).imp_right .inl)
    | ok w =>
      cases hd : decodeWord s.cfg.opmap w with
      | ok i => simpa [hd] using StepCase.run i hh (by simp [State.current, hf, hd])
      | error e =>
        have hc : s.current = none := by simp [State.current, hf, hd]
        simp only [hd]
        unfold unrecognized
        split
        · exact .failed _ hh hc (.inr (.inr rfl))
        · rename_i hp
          exact .hang hh hc hp

/-- If a step answers next `t`: it was halted and stays, or ran the instruction at `pc`, or raised a fatal error before
selecting one, or hung. -/
theorem step_next_cases {s t : State} (h : step s = .next t) :
    (s.halted = true ∧ t = s) ∨
    (s.halted = false ∧ ∃ i, s.current = some i ∧ exec i s = .next t ∧ Effect i s t) ∨
    (s.halted = false ∧ s.current = none ∧
      ∃ f, t = s.failed f ∧ (f = .misalignedFetch ∨ f = .outOfBounds ∨ f = .invalidOpcode)) ∨
    (s.halted = false ∧ s.current = none ∧ t = s ∧ s.cfg.unknownOpcode = .hang) := by
  have hc := step_cases s
  generalize step s = o at h hc
  cases hc with
  | halted hh =>
    cases h
    exact .inl ⟨hh, rfl⟩
  | run i hh hc =>
    obtain ⟨t', ht', he⟩ := exec_effect i s
    obtain rfl : t' = t := by simpa using ht'.symm.trans h
    exact .inr (.inl ⟨hh, i, hc, ht', he⟩)
  | failed f hh hc hf =>
    cases h
    exact .inr (.inr (.inl ⟨hh, hc, f, rfl, hf⟩))
  | hang hh hc hp =>
    cases h
    exact .inr (.inr (.inr ⟨hh, hc, rfl, hp⟩))

/-! ### Runs -/

theorem run_zero (s : State) : core.run 0 s = .next s := rfl

theorem run_succ_of_step (M : Host.Core) {s t : M.State} (h : M.step s = .next t) (k : Nat) :
    M.run (k + 1) s = M.run k t := by
  rw [Host.Core.run, h]

/-- A run of one more step: the step, then the rest of the run. -/
theorem run_succ {s t : State} (h : step s = .next t) (k : Nat) : core.run (k + 1) s = core.run k t :=
  run_succ_of_step core h k

/-! ### The instruction at `pc` -/

theorem current_eq_some_iff (s : State) (i : Instr) :
    s.current = some i ↔ ∃ w, fetch s = .ok w ∧ decodeWord s.cfg.opmap w = .ok i := by
  unfold State.current
  cases fetch s with
  | error => simp
  | ok w => cases hd : decodeWord s.cfg.opmap w <;> simp [hd]

end Sys2Proof.Machine
end

