-- ==== Sys2Proof/Tests/Slice0.lean ====
section
/-! SUPPORT. The model's own tests. Expected results are the vectors of spec/95_test_vectors.md (named M1, A2, ... in the
comments) and the encodings of spec/30_encoding.md, never the model's answers. Witnesses show that the hypotheses of the
statements can be met, at the edges of their ranges. -/

namespace Sys2Proof.Tests

open Sys2Proof.Machine

/-! ### Helpers -/

/-- A running machine in configuration `T` (R4) with the given registers, `pc`, `ZF` and words in memory. -/
def st (regs : List Word) (pc : Word) (zf : Bool) (words : List (Nat × Word)) : State where
  cfg := Config.reset
  regs := regs
  pc := pc
  zf := zf
  halted := false
  fault := none
  mem := words.foldl (fun m p => Memory.writeWord m p.1 p.2) []

/-- The state an outcome answers next; the given one if it answers none. -/
def nextOr (s : State) : Host.Outcome State Fault Refusal → State
  | .next t => t
  | .fault _ => s
  | .refused _ => s

/-- The state after one step. -/
def after (s : State) : State := nextOr s (step s)

/-- How the machine ended, and where: `HALTED`, `FAULT`, `pc`. -/
def ending (s : State) : Bool × Option FatalError × Word := (s.halted, s.fault, s.pc)

/-! ### Decoding: words written out from R71 and R75, opcode, regA, regB, immediate -/

theorem test_decode_moveRegister :
    decodeTableWord 32 0b00000000_0010_0001_0000000000000000 = some (.moveRegister 2 1) := by decide
theorem test_decode_moveImmediate : decodeTableWord 32 0x0137ABCD = some (.moveImmediate 3 0xABCD) := by decide
theorem test_decode_addRegister : decodeTableWord 32 0x02010000 = some (.addRegister 0 1) := by decide
theorem test_decode_addImmediate : decodeTableWord 32 0x0310FFFF = some (.addImmediate 1 0xFFFF) := by decide
theorem test_decode_subRegister : decodeTableWord 32 0x04330000 = some (.subRegister 3 3) := by decide
theorem test_decode_subImmediate :
    decodeTableWord 32 0b00000101_0010_0000_1111111111111111 = some (.subImmediate 2 0xFFFF) := by decide
theorem test_decode_andRegister : decodeTableWord 32 0x06010000 = some (.andRegister 0 1) := by decide
theorem test_decode_andImmediate : decodeTableWord 32 0x070000FF = some (.andImmediate 0 0xFF) := by decide
theorem test_decode_orRegister : decodeTableWord 32 0x08010000 = some (.orRegister 0 1) := by decide
theorem test_decode_orImmediate : decodeTableWord 32 0x0930FFFF = some (.orImmediate 3 0xFFFF) := by decide
theorem test_decode_shiftRightImmediate :
    decodeTableWord 32 0x0A00001F = some (.shiftRightImmediate 0 31) := by decide
theorem test_decode_shiftLeftImmediate :
    decodeTableWord 32 0b00001011_0011_0000_0000000000010000 = some (.shiftLeftImmediate 3 16) := by decide
theorem test_decode_compare :
    decodeTableWord 32 0b00001100_0010_0011_0000000000000000 = some (.compare 2 3) := by decide
theorem test_decode_jump : decodeTableWord 32 0x0D990010 = some (.jump 0x10) := by decide
theorem test_decode_jumpIfZero : decodeTableWord 32 0x0E000034 = some (.jumpIfZero 0x34) := by decide
theorem test_decode_jumpIfNotZero : decodeTableWord 32 0x0F000008 = some (.jumpIfNotZero 8) := by decide
theorem test_decode_loadRegisterIndirect :
    decodeTableWord 32 0x10200000 = some (.loadRegisterIndirect 2 0) := by decide
theorem test_decode_loadImmediateAddress :
    decodeTableWord 32 0x11200100 = some (.loadImmediateAddress 2 0x100) := by decide
theorem test_decode_storeRegisterIndirect :
    decodeTableWord 32 0b00010010_0010_0001_0000000000000000 = some (.storeRegisterIndirect 2 1) := by decide
theorem test_decode_storeImmediateAddress :
    decodeTableWord 32 0x13090100 = some (.storeImmediateAddress 0 0x100) := by decide
theorem test_decode_halt : decodeTableWord 32 0x14FFFFFF = some .halt := by decide
theorem test_decode_noOp : decodeTableWord 32 0b00010101_0000_0000_0000000000000000 = some .noOp := by decide
/-- F5: the first unassigned opcode, and the last. -/
theorem test_decode_unassigned : decodeTableWord 32 0x16000000 = none ∧ decodeTableWord 32 0xFFFFFFFF = none := by
  decide
/-- F8: the bytes `CD 34 AB 12` are the word `0x12AB34CD`; F7: its fields. -/
theorem test_decode_little_endian :
    wordOfBytes 0xCD 0x34 0xAB 0x12 = 0x12AB34CD ∧ decodeFields 0x12AB34CD = ⟨0x12, 0xA, 0xB, 0x34CD⟩ := by decide
theorem test_decode_truncated : decode OpMap.default [0x00, 0x00, 0x00] = .error .truncated := by decide
/-- Rows of R75: the canonical word of an instruction of each shape. -/
theorem test_encode : encode OpMap.default (.storeRegisterIndirect 2 1) = 0x12210000 ∧
    encode OpMap.default (.shiftLeftImmediate 3 16) = 0x0B300010 ∧
    encode OpMap.default (.jump 0x100) = 0x0D000100 ∧ encode OpMap.default .halt = 0x14000000 := by decide

/-! ### Well-formedness: each check refuses an ill-formed term -/

theorem test_wf_refuses_regA : Instr.wf 4 (.moveRegister 4 0) = false := by decide
theorem test_wf_refuses_regB : Instr.wf 4 (.moveRegister 0 4) = false := by decide
theorem test_wf_accepts : Instr.wf 4 (.moveRegister 3 3) = true ∧ Instr.wf 4 (.jump 0xFFFF) = true := by decide
theorem test_wf_refuses_shared_opcode :
    ¬ Config.wf { Config.reset with opmap := { OpMap.default with noOp := 0x14 } } := by decide
theorem test_wf_refuses_large_space : ¬ Config.wf { Config.reset with ramSize := 2 ^ 32 } := by decide
theorem test_wf_accepts_config : Config.wf Config.reset := by decide
theorem test_memory_wf_refuses_order : ¬ Memory.wf [(2, 1), (1, 1)] := by decide
theorem test_memory_wf_refuses_unlisted : ¬ Memory.wf [(1, 0)] := by decide
/-- Writing the unlisted byte removes the entry; a lower address goes in front. -/
theorem test_memory_write_canonical :
    Memory.write [(1, 5), (2, 7)] 2 0 = [(1, 5)] ∧ Memory.write [(4, 5)] 3 9 = [(3, 9), (4, 5)] := by decide

/-! ### One step each (spec/95_test_vectors.md part 2) -/

/-- M1. -/
theorem test_moveRegister :
    (after (st [0, 0xDEADBEEF, 3, 0] 0x10 false [(0x10, 0x00210000)])).regs = [0, 0xDEADBEEF, 0xDEADBEEF, 0] := by
  decide
/-- M4: a source register that does not exist. -/
theorem test_moveRegister_bad_source :
    ending (after (st [0, 0, 0, 0] 0x10 false [(0x10, 0x00040000)])) = (true, some .invalidRegisterIndex, 0x10) := by
  decide
/-- M6: zero extension, `B` ignored. -/
theorem test_moveImmediate :
    (after (st [0, 0, 0, 0xFFFFFFFF] 0x10 false [(0x10, 0x0137ABCD)])).regs = [0, 0, 0, 0xABCD] := by decide
/-- M8: `ZF` is not set by a zero result. -/
theorem test_moveImmediate_zero : (after (st [0, 0, 9, 0] 0x10 false [(0x10, 0x01200000)])).zf = false := by decide
/-- A2: wrap. -/
theorem test_addRegister_wraps :
    (after (st [0xFFFFFFFF, 1, 0, 0] 0x10 false [(0x10, 0x02010000)])).regs = [0, 1, 0, 0] := by decide
/-- A3: source and destination the same. -/
theorem test_addRegister_doubles :
    (after (st [0, 0, 0x80000001, 0] 0x10 false [(0x10, 0x02220000)])).regs = [0, 0, 2, 0] := by decide
/-- A6: the immediate is +65535. -/
theorem test_addImmediate :
    (after (st [0, 0xFFFF0001, 0, 0] 0x10 false [(0x10, 0x0310FFFF)])).regs = [0, 0, 0, 0] := by decide
/-- A9: underflow. -/
theorem test_subRegister :
    (after (st [5, 0xA, 0, 0] 0x10 false [(0x10, 0x04010000)])).regs = [0xFFFFFFFB, 0xA, 0, 0] := by decide
/-- A14. -/
theorem test_subImmediate :
    (after (st [0, 0, 0, 0] 0x10 false [(0x10, 0x0520FFFF)])).regs = [0, 0, 0xFFFF0001, 0] := by decide
/-- A15: `ZF` is not set by a zero result. -/
theorem test_subImmediate_zero : (after (st [1, 0, 0, 0] 0x10 false [(0x10, 0x05000001)])).zf = false := by decide
/-- L1. -/
theorem test_andRegister :
    (after (st [0xFF00FF00, 0x0FF00FF0, 0, 0] 0x10 false [(0x10, 0x06010000)])).regs =
      [0x0F000F00, 0x0FF00FF0, 0, 0] := by decide
/-- L3: the high half is cleared. -/
theorem test_andImmediate :
    (after (st [0xFFFFFFFF, 0, 0, 0] 0x10 false [(0x10, 0x0700FFFF)])).regs = [0xFFFF, 0, 0, 0] := by decide
/-- L5. -/
theorem test_orRegister :
    (after (st [0xFF00FF00, 0x0FF00FF0, 0, 0] 0x10 false [(0x10, 0x08010000)])).regs =
      [0xFFF0FFF0, 0x0FF00FF0, 0, 0] := by decide
/-- L6. -/
theorem test_orImmediate :
    (after (st [0, 0, 0, 0xFFFF0000] 0x10 false [(0x10, 0x0930FFFF)])).regs = [0, 0, 0, 0xFFFFFFFF] := by decide
/-- L9: zero fill. -/
theorem test_shiftRight_zero_fill :
    (after (st [0x80000000, 0, 0, 0] 0x10 false [(0x10, 0x0A000004)])).regs = [0x08000000, 0, 0, 0] := by decide
/-- L12. -/
theorem test_shiftRight_32 :
    (after (st [0xFFFFFFFF, 0, 0, 0] 0x10 false [(0x10, 0x0A000020)])).regs = [0, 0, 0, 0] := by decide
/-- L15. -/
theorem test_shiftLeft_drops_top :
    (after (st [0xC0000001, 0, 0, 0] 0x10 false [(0x10, 0x0B000001)])).regs = [0x80000002, 0, 0, 0] := by decide
/-- L18: the amount is not masked to five bits. -/
theorem test_shiftLeft_33 :
    (after (st [1, 0, 0, 0] 0x10 false [(0x10, 0x0B000021)])).regs = [0, 0, 0, 0] := by decide
/-- B1. -/
theorem test_compare_equal :
    (after (st [0, 0, 0xFFFFFFFF, 0xFFFFFFFF] 0x10 false [(0x10, 0x0C230000)])).zf = true := by decide
/-- B4. -/
theorem test_compare_unequal :
    (after (st [0, 0x80000000, 0, 0] 0x10 true [(0x10, 0x0C010000)])).zf = false := by decide
/-- B7: ignored register fields are not checked. -/
theorem test_jump : ending (after (st [0, 0, 0, 0] 0x34 false [(0x34, 0x0D990010)])) = (false, none, 0x10) := by decide
/-- B9: a bad target is taken and faults at the next fetch. -/
theorem test_jump_misaligned :
    ending (after (st [0, 0, 0, 0] 0x34 false [(0x34, 0x0D00FFFF)])) = (false, none, 0xFFFF) ∧
    ending (after (after (st [0, 0, 0, 0] 0x34 false [(0x34, 0x0D00FFFF)]))) =
      (true, some .misalignedFetch, 0xFFFF) := by decide
/-- B10. -/
theorem test_jumpIfZero_taken : (after (st [0, 0, 0, 0] 0x1C true [(0x1C, 0x0E000034)])).pc = 0x34 := by decide
/-- B12: a misaligned target, not taken. -/
theorem test_jumpIfZero_not_taken : (after (st [0, 0, 0, 0] 0x1C false [(0x1C, 0x0E000033)])).pc = 0x20 := by decide
/-- B13. -/
theorem test_jumpIfNotZero_taken : (after (st [0, 0, 0, 0] 0x10 false [(0x10, 0x0F000008)])).pc = 8 := by decide
/-- B14. -/
theorem test_jumpIfNotZero_not_taken : (after (st [0, 0, 0, 0] 0x10 true [(0x10, 0x0F000008)])).pc = 0x14 := by
  decide
/-- X2: `A = B`, reading its own word from ROM. -/
theorem test_loadRegisterIndirect :
    (after (st [0x10, 0, 0, 0] 0x10 false [(0x10, 0x10000000)])).regs = [0x10000000, 0, 0, 0] := by decide
/-- X6: `addr + 3` does not wrap. -/
theorem test_loadRegisterIndirect_no_wrap :
    ending (after (st [0xFFFFFFFE, 0, 5, 0] 0x10 false [(0x10, 0x10200000)])) = (true, some .outOfBounds, 0x10) := by
  decide
/-- X8. -/
theorem test_loadImmediateAddress :
    (after (st [0, 0, 0, 0] 0x10 false [(0x10, 0x11200100), (0x100, 7)])).regs = [0, 0, 7, 0] := by decide
/-- P6h: a straddling read. -/
theorem test_loadImmediateAddress_straddles :
    ending (after (st [0, 0, 0, 0] 0 false [(0, 0x110000FE)])) = (true, some .outOfBounds, 0) := by decide
/-- X10: the first operand is the value, the second the address; little-endian. -/
theorem test_storeRegisterIndirect :
    [0x100, 0x101, 0x102, 0x103].map (after (st [0, 0x100, 0x0100000A, 0] 0x10 false [(0x10, 0x12210000)])).byteAt =
      [0x0A, 0, 0, 1] := by decide
/-- X13: a straddling write. -/
theorem test_storeRegisterIndirect_straddles :
    ending (after (st [0, 0xFF, 0x55, 0] 0x10 false [(0x10, 0x12210000)])) = (true, some .readOnlyViolation, 0x10) := by
  decide
/-- X20: `B` ignored. -/
theorem test_storeImmediateAddress :
    Memory.readWord (after (st [7, 0, 0, 0] 0x10 false [(0x10, 0x13090100)])).mem 0x100 = 7 := by decide
/-- X19: a missing register, memory unchanged. -/
theorem test_storeImmediateAddress_bad_register :
    ending (after (st [7, 0, 0, 0] 0x10 false [(0x10, 0x13600100)])) = (true, some .invalidRegisterIndex, 0x10) ∧
    (after (st [7, 0, 0, 0] 0x10 false [(0x10, 0x13600100)])).mem = (st [7, 0, 0, 0] 0x10 false [(0x10, 0x13600100)]).mem := by
  decide
/-- Y2: every ignored bit set. -/
theorem test_halt : ending (after (st [1, 2, 3, 4] 0xC true [(0xC, 0x14FFFFFF)])) = (true, none, 0xC) := by decide
/-- Y4: the last word of RAM, and the fetch after it. -/
theorem test_noOp : ending (after (st [0, 0, 0, 0] 0x1FC false [(0x1FC, 0x15000000)])) = (false, none, 0x200) ∧
    ending (after (after (st [0, 0, 0, 0] 0x1FC false [(0x1FC, 0x15000000)]))) = (true, some .outOfBounds, 0x200) := by
  decide

/-! ### Fetch, construction, memory, notation -/

/-- F3: alignment is checked before bounds. -/
theorem test_fetch_misaligned_first :
    ending (after (st [0, 0, 0, 0] 0x1FE false [])) = (true, some .misalignedFetch, 0x1FE) := by decide
/-- F4, policy `fault`. -/
theorem test_unknown_opcode :
    ending (after (st [0, 0, 0, 0] 4 false [(4, 0xFF000000)])) = (true, some .invalidOpcode, 4) := by decide
/-- F4, policy `hang`. -/
theorem test_unknown_opcode_hang :
    (fun s => decide (after s = s)) { st [0, 0, 0, 0] 4 false [(4, 0xFF000000)] with
      cfg := { Config.reset with unknownOpcode := .hang } } = true := by decide
/-- F6: the all-zero word of untouched RAM. -/
theorem test_zero_word : after (st [0, 0, 0, 0] 0x100 false []) = st [0, 0, 0, 0] 0x104 false [] := by decide
/-- F9: sixteen registers. -/
theorem test_sixteen_registers :
    (after (st ((List.replicate 16 0).set 4 9) 0 false [(0, 0x00F40000)])).reg 15 = 9 := by decide
/-- The unaligned sequence of section 2.5. -/
theorem test_unaligned_accesses :
    Memory.readWord (Memory.writeWord [] 0x101 0xBBAADDCC) 0x100 = 0xAADDCC00 ∧
    Memory.readWord (Memory.writeWord [] 0x101 0xBBAADDCC) 0x104 = 0x000000BB ∧
    Memory.readWord (Memory.writeWord [] 0x101 0xBBAADDCC) 0x102 = 0x00BBAADD := by decide
/-- S-C: image lengths 255 and 257. -/
theorem test_construct_wrong_length :
    construct 4 Config.reset (List.replicate 255 0) = .fault .invalidImageSize ∧
    construct 4 Config.reset (List.replicate 257 0) = .fault .invalidImageSize := by
  constructor <;> rw [construct, if_neg (by rw [List.length_replicate]; decide)]
/-- R160: the codes of the fault latch. -/
theorem test_fault_codes :
    [none, some .outOfBounds, some .readOnlyViolation, some .invalidImageSize, some .invalidRegisterIndex,
      some .invalidOpcode, some .misalignedFetch].map faultCode = [0, 1, 2, 3, 4, 5, 6] := by decide
/-- P3's loop in the notation of R81: a label as a jump target. -/
theorem test_assemble_label :
    assemble OpMap.default
      [⟨none, .instr .moveImmediate [.reg 0, .number 5]⟩, ⟨some "loop", .instr .addRegister [.reg 1, .reg 0]⟩,
        ⟨none, .instr .jumpIfNotZero [.label "loop"]⟩, ⟨none, .instr .halt []⟩] 8 =
      .ok [0x01000005, 0x02100000, 0x0F00000C, 0x14000000] := by decide
/-- R81: `store-register-indirect(R2, R1)`. -/
theorem test_text :
    (Instr.storeRegisterIndirect 2 1).statement.text = "store-register-indirect(R2, R1)" := by decide

/-! ### Witnesses: the hypotheses of each statement, met by concrete data -/

/-- The bytes at `pc`, as the statements name them. -/
def bytesAtPc (s : State) : List Byte :=
  [s.byteAt s.pc.toNat, s.byteAt (s.pc.toNat + 1), s.byteAt (s.pc.toNat + 2), s.byteAt (s.pc.toNat + 3)]

/-- `st` with no word but one at `pc`. -/
def at_ (pc : Nat) (w : Word) : State := st [0, 0, 0, 0] (BitVec.ofNat 32 pc) false [(pc, w)]

/-- The same machine under the policy `hang`. -/
def hanging (s : State) : State := { s with cfg := { s.cfg with unknownOpcode := .hang } }

/-- The same machine with a ROM of `n` bytes. -/
def romOf (n : Nat) (s : State) : State := { s with cfg := { s.cfg with romSize := n } }

theorem witness_wellFormedOpMap : OpMap.default.wf := by decide

theorem witness_IgnoredFieldsDoNotMatter :
    decodeWord OpMap.default 0x01300005 = .ok (.moveImmediate 3 5) ∧
    (decodeFields 0x013F0005).opcode = (decodeFields 0x01300005).opcode ∧
    (decodeFields 0x013F0005).regA = (decodeFields 0x01300005).regA ∧
    Instr.fieldB (.moveImmediate 3 5) = none ∧
    (decodeFields 0x013F0005).imm = (decodeFields 0x01300005).imm := by decide

/-- First clause at the first and the last assigned opcode, second clause at the first and the last unassigned one. -/
theorem witness_SelectionIsByOpcodeAlone :
    OpMap.default.wf ∧
    OpMap.default.opcodeOf .moveRegister = (decodeFields 0x00FFFFFF).opcode ∧
    OpMap.default.opcodeOf .noOp = (decodeFields 0x15000000).opcode ∧
    (∀ m, OpMap.default.opcodeOf m ≠ (decodeFields 0x16000000).opcode) ∧
    (∀ m, OpMap.default.opcodeOf m ≠ (decodeFields 0xFFFFFFFF).opcode) := by
  refine ⟨by decide, by decide, by decide, fun m => ?_, fun m => ?_⟩ <;> cases m <;> decide

theorem witness_Construction :
    (List.replicate 256 (0 : Byte)).length = Config.reset.romSize ∧ Config.reset.wf ∧ 1 ≤ 1 ∧ 16 ≤ 16 ∧
    construct 16 Config.reset (List.replicate 256 0x15) =
      .next (State.initial 16 Config.reset (List.replicate 256 0x15)) := by
  refine ⟨List.length_replicate .., by decide, by decide, by decide, ?_⟩
  rw [construct, if_pos (by rw [List.length_replicate]; rfl)]

theorem witness_WrongImageLength :
    (List.replicate 255 (0 : Byte)).length ≠ Config.reset.romSize ∧
    (List.replicate 257 (0 : Byte)).length ≠ Config.reset.romSize := by
  constructor <;> rw [List.length_replicate] <;> decide

/-- A running state of the invariant that is not the reset state, and a step from it. -/
theorem witness_EveryStepKeepsTheInvariant :
    (at_ 0x100 0x15000000).Inv ∧ step (at_ 0x100 0x15000000) = .next (after (at_ 0x100 0x15000000)) :=
  ⟨⟨by decide, by decide, by decide, by decide, by decide, by decide, by decide, by decide⟩, rfl⟩

/-- The first and the last word of ROM and of RAM; the smallest ROM that holds a first instruction. -/
theorem witness_StepRunsTheDecodedInstruction :
    ¬ (romOf 4 (at_ 0 0x15000000)).noFirstInstruction ∧ region (romOf 4 (at_ 0 0x15000000)).cfg 0 = .rom ∧
    (∀ p ∈ [0, 0xFC, 0x100, 0x1FC], (at_ p 0x15000000).halted = false ∧ (at_ p 0x15000000).pc.toNat % 4 = 0 ∧
      ¬ (at_ p 0x15000000).noFirstInstruction ∧
      (region (at_ p 0x15000000).cfg (at_ p 0x15000000).pc.toNat = .rom ∨
        region (at_ p 0x15000000).cfg (at_ p 0x15000000).pc.toNat = .ram)) ∧
    (∀ p ∈ [0, 0xFC, 0x100, 0x1FC],
      decode (at_ p 0x15000000).cfg.opmap (bytesAtPc (at_ p 0x15000000)) = .ok (.noOp, [])) := by decide

theorem witness_OnlyHaltAndFatalErrorsSetHalted :
    (after (at_ 0 0x14000000)).halted = true ∧
    step (after (at_ 0 0x14000000)) = .next (after (at_ 0 0x14000000)) ∧
    (at_ 0 0x14000000).running ∧ (at_ 0 0x14000000).current = some .halt ∧
    step (at_ 0 0x14000000) = .next (after (at_ 0 0x14000000)) ∧
    (at_ 2 0).running ∧ (at_ 2 0).fault = none ∧ step (at_ 2 0) = .next (after (at_ 2 0)) ∧
    (after (at_ 2 0)).fault = some .misalignedFetch ∧ (after (at_ 2 0)).halted = true := by
  refine ⟨by decide, rfl, rfl, by decide, rfl, rfl, by decide, rfl, by decide, by decide⟩

theorem witness_MisalignedPc :
    ∀ p ∈ [1, 2, 3, 0x1FE, 0xFFFFFFFF], (at_ p 0).halted = false ∧ (at_ p 0).pc.toNat % 4 ≠ 0 := by decide

/-- Outside: the first address, and the last aligned one; straddling: 252 with a ROM of 254 bytes; the entry point with a ROM
of 0 and of 3 bytes, which R44 calls `Ram` and `Straddle`. -/
theorem witness_FetchOutsideTheRegions :
    (∀ p ∈ [0x200, 0xFFFFFFFC], (at_ p 0).halted = false ∧ (at_ p 0).pc.toNat % 4 = 0 ∧
      region (at_ p 0).cfg (at_ p 0).pc.toNat = .outside) ∧
    (romOf 254 (at_ 252 0)).halted = false ∧ (romOf 254 (at_ 252 0)).pc.toNat % 4 = 0 ∧
    region (romOf 254 (at_ 252 0)).cfg (romOf 254 (at_ 252 0)).pc.toNat = .straddle ∧
    (∀ n ∈ [0, 3], (romOf n (at_ 0 0)).halted = false ∧ (romOf n (at_ 0 0)).noFirstInstruction) ∧
    [0, 3].map (fun n => region (romOf n (at_ 0 0)).cfg 0) = [.ram, .straddle] := by decide

/-- R192: with a ROM of 0 to 3 bytes the first step faults; a ROM of 4 bytes holds a first instruction. -/
theorem test_first_step_needs_four_bytes_of_rom :
    [0, 1, 2, 3, 4].map (fun n => ending (after (romOf n (st [0, 0, 0, 0] 0 false [])))) =
      [(true, some .outOfBounds, 0), (true, some .outOfBounds, 0), (true, some .outOfBounds, 0),
        (true, some .outOfBounds, 0), (false, none, 4)] := by decide

theorem witness_MachineWithoutAFirstInstruction :
    ({ Config.reset with romSize := 0 } : Config).romSize < 4 ∧
    ([] : List Byte).length = ({ Config.reset with romSize := 0 } : Config).romSize ∧
    ({ Config.reset with romSize := 3 } : Config).romSize < 4 ∧
    ([1, 2, 3] : List Byte).length = ({ Config.reset with romSize := 3 } : Config).romSize := by decide

theorem witness_UnrecognizedOpcode :
    (at_ 4 0x16000000).running ∧ fetch (at_ 4 0x16000000) = .ok 0x16000000 ∧
    (∀ m, (at_ 4 0x16000000).cfg.opmap.opcodeOf m ≠ (decodeFields 0x16000000).opcode) ∧
    (at_ 4 0x16000000).cfg.unknownOpcode = .fault ∧
    (hanging (at_ 4 0x16000000)).running ∧ fetch (hanging (at_ 4 0x16000000)) = .ok 0x16000000 ∧
    (hanging (at_ 4 0x16000000)).cfg.unknownOpcode = .hang := by
  refine ⟨rfl, by decide, fun m => ?_, by decide, rfl, by decide, by decide⟩
  cases m <;> decide

/-- A running machine without a fault, and each case of the table at the edge of its range. -/
theorem witness_FaultsOfEachInstruction :
    (at_ 0 0).running ∧ (at_ 0 0).fault = none ∧
    Instr.wf 4 (.compare 3 4) = false ∧ Instr.wf 4 (.compare 3 3) = true ∧
    loadAddress (at_ 0 0) (.loadImmediateAddress 3 0x1FD) = some 0x1FD ∧
    [0xFC, 0xFD, 0xFF, 0x100, 0x1FC, 0x1FD].map (region Config.reset) =
      [.rom, .straddle, .straddle, .ram, .ram, .outside] := by
  refine ⟨rfl, by decide, by decide, by decide, by decide, by decide⟩

theorem witness_FaultsArePrecise :
    (at_ 0x200 0).running ∧ (at_ 0x200 0).fault = none ∧ step (at_ 0x200 0) = .next (after (at_ 0x200 0)) ∧
    (after (at_ 0x200 0)).fault = some .outOfBounds := ⟨rfl, by decide, rfl, by decide⟩

theorem witness_LatchedFaultNeverChanges :
    (after (at_ 2 0)).Inv ∧ (after (at_ 2 0)).fault = some .misalignedFetch :=
  ⟨⟨by decide, by decide, by decide, by decide, by decide, by decide, by decide, by decide⟩, by decide⟩

/-- The register checks of every instruction rule: the last register, and the first that does not exist. -/
theorem witness_registerOperands :
    (3 : RegIndex).toNat < (at_ 0 0).nreg ∧ (0 : RegIndex).toNat < (at_ 0 0).nreg ∧
    (at_ 0 0).nreg ≤ (4 : RegIndex).toNat ∧ (at_ 0 0).nreg ≤ (15 : RegIndex).toNat := by decide

/-- Shifts: amounts on both sides of 32. -/
theorem witness_shiftAmounts : ¬ 32 ≤ (31 : Imm).toNat ∧ 32 ≤ (32 : Imm).toNat ∧ 32 ≤ (0xFFFF : Imm).toNat := by
  decide

theorem witness_JumpsGoToTheImmediate :
    (st [] 0 true []).zf = true ∧ ¬ (st [] 0 false []).zf = true ∧ (st [] 0 false []).zf = false := by decide

theorem witness_JumpToItself :
    (at_ 0x34 0x0D000034).running ∧ (at_ 0x34 0x0D000034).current = some (.jump 0x34) ∧
    (at_ 0x34 0x0D000034).pc.toNat = (0x34 : Imm).toNat := ⟨rfl, by decide, by decide⟩

/-- Loads and stores: addresses in each region, in a register, at the edges of the regions. -/
theorem witness_LoadsAndStores :
    [0, 0xFC, 0x100, 0x1FC].map (fun a => region (st [a, 0, 0, 0] 0 false []).cfg
      ((st [a, 0, 0, 0] 0 false []).reg 0).toNat) = [.rom, .rom, .ram, .ram] ∧
    [0xFD, 0xFF, 0x1FD, 0xFFFFFFFF].map (fun a => region (st [a, 0, 0, 0] 0 false []).cfg
      ((st [a, 0, 0, 0] 0 false []).reg 0).toNat) = [.straddle, .straddle, .outside, .outside] ∧
    [0, 0xFC, 0xFD, 0x100, 0x1FC, 0x1FD, 0xFFFF].map (fun n => region Config.reset (imm32 n).toNat) =
      [.rom, .rom, .straddle, .ram, .ram, .outside, .outside] := by decide

theorem witness_OnlyCompareWritesZF :
    step (at_ 0 0x0C110000) = .next (after (at_ 0 0x0C110000)) ∧
    (after (at_ 0 0x0C110000)).zf ≠ (at_ 0 0x0C110000).zf ∧
    Instr.mnemonic (.addRegister 0 1) ≠ .jumpIfZero ∧ Instr.mnemonic (.addRegister 0 1) ≠ .jumpIfNotZero ∧
    exec (.addRegister 0 1) (at_ 0 0) = .next (nextOr (at_ 0 0) (exec (.addRegister 0 1) (at_ 0 0))) :=
  ⟨rfl, by decide, by decide, by decide, rfl⟩

/-- A run of two steps that stores to RAM; the last byte of ROM. -/
theorem witness_RomAndParametersNeverChange :
    core.run 2 (at_ 0 0x13000100) = .next (after (after (at_ 0 0x13000100))) ∧
    255 < (at_ 0 0x13000100).cfg.romSize := ⟨rfl, by decide⟩

theorem witness_RegistersChangeOnlyThroughRegA :
    step (at_ 0 0x01300005) = .next (after (at_ 0 0x01300005)) ∧
    (after (at_ 0 0x01300005)).reg 3 ≠ (at_ 0 0x01300005).reg 3 := ⟨rfl, by decide⟩

theorem witness_MemoryChangesOnlyByStoresInRam :
    step (st [7, 0, 0, 0] 0 false [(0, 0x130001FC)]) = .next (after (st [7, 0, 0, 0] 0 false [(0, 0x130001FC)])) ∧
    (after (st [7, 0, 0, 0] 0 false [(0, 0x130001FC)])).byteAt 0x1FC ≠
      (st [7, 0, 0, 0] 0 false [(0, 0x130001FC)]).byteAt 0x1FC := ⟨rfl, by decide⟩

theorem witness_PcFollowsTheDispatchTable :
    (at_ 0 0x0F000008).running ∧ (at_ 0 0x0F000008).fault = none ∧
    (at_ 0 0x0F000008).current = some (.jumpIfNotZero 8) ∧
    step (at_ 0 0x0F000008) = .next (after (at_ 0 0x0F000008)) ∧ (after (at_ 0 0x0F000008)).fault = none :=
  ⟨rfl, by decide, by decide, rfl, by decide⟩

theorem witness_NormalEndIsAtAHalt :
    (at_ 0xC 0x14000000).running ∧ step (at_ 0xC 0x14000000) = .next (after (at_ 0xC 0x14000000)) ∧
    (after (at_ 0xC 0x14000000)).endedNormally := ⟨rfl, rfl, by decide, by decide⟩

theorem witness_OpcodeValuesDoNotMatter :
    exec (.loadImmediateAddress 1 0) (at_ 0 7) =
      .next (nextOr (at_ 0 7) (exec (.loadImmediateAddress 1 0) (at_ 0 7))) := rfl

theorem witness_StoredWordIsReadBack : region (at_ 0 0).cfg (0x1FC : Word).toNat = .ram := by decide

/-- Both clauses, and the corner `RAM_SIZE < 3` of 90_conflicts.md C3. -/
theorem witness_RomWritesAndOutsideAccessesFail :
    (0x1FD : Word).toNat + 3 ≥ (at_ 0 0).cfg.totalSize ∧
    ((0xFF : Word).toNat + 3 < (at_ 0 0).cfg.totalSize ∧ (0xFF : Word).toNat < (at_ 0 0).cfg.romSize) ∧
    region { Config.reset with ramSize := 2 } 0xFF = .outside := by decide

/-- Bytes just inside and just outside the stored word. -/
theorem witness_OverlappingAccesses :
    (0x101 ≤ 0x104 + 0 ∧ 0x104 + 0 < 0x101 + 4) ∧ (0x100 + 0 < 0x101 ∨ 0x101 + 4 ≤ 0x100 + 0) ∧
    (0x104 + 1 < 0x101 ∨ 0x101 + 4 ≤ 0x104 + 1) := by decide

theorem witness_StoreOverTheNextInstruction :
    (st [7, 0x104, 0, 0] 0x100 false []).Inv ∧
    (0 : RegIndex).toNat < (st [7, 0x104, 0, 0] 0x100 false []).nreg ∧
    (st [7, 0x104, 0, 0] 0x100 false []).pc.toNat % 4 = 0 ∧
    region (st [7, 0x104, 0, 0] 0x100 false []).cfg ((st [7, 0x104, 0, 0] 0x100 false []).pc + 4).toNat = .ram ∧
    (st [7, 0x104, 0, 0] 0x100 false []).reg 1 = (st [7, 0x104, 0, 0] 0x100 false []).pc + 4 ∧
    imm32 0x104 = (st [7, 0x104, 0, 0] 0x100 false []).pc + 4 :=
  ⟨⟨by decide, by decide, by decide, by decide, by decide, by decide, by decide, by decide⟩, by decide⟩

/-- The reset state runs a placed word first: every hypothesis, at the first word of ROM and the last of RAM. -/
theorem witness_PlacedWordIsRunNext :
    State.reset.running ∧ State.reset.pc.toNat % 4 = 0 ∧
    ¬ State.reset.noFirstInstruction ∧ ¬ (at_ 0x1FC 0).noFirstInstruction ∧
    region State.reset.cfg State.reset.pc.toNat = .rom ∧ region (at_ 0x1FC 0).cfg (at_ 0x1FC 0).pc.toNat = .ram ∧
    decodeWord State.reset.cfg.opmap (tableWord 32 0x14000000) = .ok .halt ∧
    (after (State.reset.withFetchWord 32 0x14000000)).halted = true :=
  ⟨rfl, by decide, by decide, by decide, by decide, by decide, by decide, by decide⟩

end Sys2Proof.Tests
end

section
/-! SUPPORT. The Zero flag (R16): which operations write it, and that all but the conditional jumps run alike whatever it
holds. -/

namespace Sys2Proof.Machine

/-! ### Writing the flag -/

/-- A constructed machine is in the reset state of R190. -/
theorem eq_initial_of_construct {nreg : Nat} {c : Config} {image : List Byte} {s : State}
    (h : construct nreg c image = .next s) : s = State.initial nreg c image := by
  unfold construct at h
  split at h <;> cases h
  rfl

theorem exec_compare_of_lt {s : State} {a b : RegIndex} (ha : a.toNat < s.nreg) (hb : b.toNat < s.nreg) :
    exec (.compare a b) s = .next (s.setZf (s.reg a == s.reg b)).advance :=
  (compareRegs_eq a b s).trans (if_pos ⟨ha, hb⟩)

theorem Effect.eq_compare_of_zf_ne {i : Instr} {s t : State} (he : Effect i s t) (hz : t.zf ≠ s.zf) :
    ∃ a b, i = .compare a b := by
  cases he with
  | compare a b hi => exact ⟨a, b, hi⟩
  | reg => exact absurd rfl hz
  | store => exact absurd rfl hz
  | jump => exact absurd rfl hz
  | advance => exact absurd rfl hz
  | halt => exact absurd rfl hz
  | failed => exact absurd rfl hz

theorem step_zf_ne_current {s t : State} (h : step s = .next t) (hz : t.zf ≠ s.zf) :
    ∃ a b, s.current = some (.compare a b) := by
  obtain ⟨-, rfl⟩ | ⟨-, i, hc, -, he⟩ | ⟨-, -, f, rfl, -⟩ | ⟨-, -, rfl, -⟩ := step_next_cases h
  · exact absurd rfl hz
  · obtain ⟨a, b, rfl⟩ := he.eq_compare_of_zf_ne hz
    exact ⟨a, b, hc⟩
  · exact absurd rfl hz
  · exact absurd rfl hz

/-! ### Running with another flag -/

/-- An operation neither reads nor writes `ZF`: with the flag replaced, it answers the same next state with the flag
replaced. -/
def CommutesWithSetZf (op : State → Host.Outcome State Fault Refusal) : Prop :=
  ∀ (s t : State) (z : Bool), op s = .next t → op (s.setZf z) = .next (t.setZf z)

@[simp] theorem Operand.word_setZf (s : State) (z : Bool) (o : Operand) : o.word (s.setZf z) = o.word s := by
  cases o <;> rfl

@[simp] theorem memRead_setZf (s : State) (z : Bool) (a : Word) : memRead (s.setZf z) a = memRead s a := rfl

@[simp] theorem memWrite_setZf (s : State) (z : Bool) (a v : Word) :
    memWrite (s.setZf z) a v = (memWrite s a v).map (fun t => t.setZf z) := by
  unfold memWrite
  rw [State.cfg_setZf]
  cases region s.cfg a.toNat <;> rfl

theorem updateReg_commutesWithSetZf (f : Word → Word → Word) (a : RegIndex) (o : Operand) :
    CommutesWithSetZf (updateReg f a o) := by
  intro s t z h
  rw [updateReg_eq] at h ⊢
  simp only [State.nreg_setZf, State.reg_setZf, Operand.word_setZf]
  split at h <;> cases h
  · next hu => exact if_pos hu
  · next hu => exact if_neg hu

theorem assignReg_commutesWithSetZf (a : RegIndex) (o : Operand) : CommutesWithSetZf (assignReg a o) := by
  intro s t z h
  rw [assignReg_eq] at h ⊢
  simp only [State.nreg_setZf, Operand.word_setZf]
  split at h <;> cases h
  · next hu => exact if_pos hu
  · next hu => exact if_neg hu

theorem loadReg_commutesWithSetZf (a : RegIndex) (o : Operand) : CommutesWithSetZf (loadReg a o) := by
  intro s t z h
  rw [loadReg_eq] at h ⊢
  simp only [State.nreg_setZf, Operand.word_setZf, memRead_setZf]
  split at h
  · next hu =>
    rw [if_pos hu]
    cases hm : memRead s (o.word s) <;> rw [hm] at h <;> cases h <;> rfl
  · next hu =>
    cases h
    exact if_neg hu

theorem storeReg_commutesWithSetZf (a : RegIndex) (o : Operand) : CommutesWithSetZf (storeReg a o) := by
  intro s t z h
  rw [storeReg_eq] at h ⊢
  simp only [State.nreg_setZf, State.reg_setZf, Operand.word_setZf, memWrite_setZf]
  split at h
  · next hu =>
    rw [if_pos hu]
    cases hm : memWrite s (o.word s) (s.reg a) <;> rw [hm] at h <;> cases h <;> rfl
  · next hu =>
    cases h
    exact if_neg hu

theorem jumpWhen_commutesWithSetZf (taken : Bool) (target : Imm) : CommutesWithSetZf (jumpWhen taken target) := by
  intro s t z h
  rw [jumpWhen_eq] at h ⊢
  cases h
  cases taken <;> rfl

theorem execHalt_commutesWithSetZf : CommutesWithSetZf execHalt := by
  intro s t z h
  cases h
  rfl

theorem execNoOp_commutesWithSetZf : CommutesWithSetZf execNoOp := by
  intro s t z h
  cases h
  rfl

/-- Every instruction but `compare` and the two conditional jumps leaves `ZF` alone and does not look at it (R16). -/
theorem exec_commutesWithSetZf (i : Instr) (hc : i.mnemonic ≠ .compare) (hz : i.mnemonic ≠ .jumpIfZero)
    (hnz : i.mnemonic ≠ .jumpIfNotZero) : CommutesWithSetZf (exec i) := by
  cases i with
  | moveRegister a b => exact assignReg_commutesWithSetZf a (.reg b)
  | moveImmediate a n => exact assignReg_commutesWithSetZf a (.imm n)
  | addRegister a b => exact updateReg_commutesWithSetZf _ a (.reg b)
  | addImmediate a n => exact updateReg_commutesWithSetZf _ a (.imm n)
  | subRegister a b => exact updateReg_commutesWithSetZf _ a (.reg b)
  | subImmediate a n => exact updateReg_commutesWithSetZf _ a (.imm n)
  | andRegister a b => exact updateReg_commutesWithSetZf _ a (.reg b)
  | andImmediate a n => exact updateReg_commutesWithSetZf _ a (.imm n)
  | orRegister a b => exact updateReg_commutesWithSetZf _ a (.reg b)
  | orImmediate a n => exact updateReg_commutesWithSetZf _ a (.imm n)
  | shiftRightImmediate a n => exact updateReg_commutesWithSetZf _ a (.imm n)
  | shiftLeftImmediate a n => exact updateReg_commutesWithSetZf _ a (.imm n)
  | compare => exact absurd rfl hc
  | jump n => exact jumpWhen_commutesWithSetZf true n
  | jumpIfZero => exact absurd rfl hz
  | jumpIfNotZero => exact absurd rfl hnz
  | loadRegisterIndirect a b => exact loadReg_commutesWithSetZf a (.reg b)
  | loadImmediateAddress a n => exact loadReg_commutesWithSetZf a (.imm n)
  | storeRegisterIndirect a b => exact storeReg_commutesWithSetZf a (.reg b)
  | storeImmediateAddress a n => exact storeReg_commutesWithSetZf a (.imm n)
  | halt => exact execHalt_commutesWithSetZf
  | noOp => exact execNoOp_commutesWithSetZf

/-- A `compare` does not look at the old flag: it overwrites it, or fails and leaves it. -/
theorem exec_compare_setZf {s t : State} (a b : RegIndex) (z : Bool) (h : exec (.compare a b) s = .next t) :
    ∃ u, exec (.compare a b) (s.setZf z) = .next u ∧ u.setZf t.zf = t := by
  change compareRegs a b s = .next t at h
  change ∃ u, compareRegs a b (s.setZf z) = .next u ∧ _
  rw [compareRegs_eq] at h ⊢
  split at h <;> cases h
  · next hu => exact ⟨_, if_pos hu, rfl⟩
  · next hu => exact ⟨_, if_neg hu, rfl⟩

/-- Noninterference of `ZF` with every instruction but the two conditional jumps (R16). -/
theorem exec_setZf {i : Instr} {s t : State} (z : Bool) (hz : i.mnemonic ≠ .jumpIfZero)
    (hnz : i.mnemonic ≠ .jumpIfNotZero) (h : exec i s = .next t) :
    ∃ u, exec i (s.setZf z) = .next u ∧ u.setZf t.zf = t := by
  by_cases hc : i.mnemonic = .compare
  · obtain ⟨a, b, rfl⟩ : ∃ a b, i = .compare a b := by
      cases i <;> cases hc
      exact ⟨_, _, rfl⟩
    exact exec_compare_setZf a b z h
  · exact ⟨t.setZf z, exec_commutesWithSetZf i hc hz hnz s t z h, rfl⟩

/-! ### The rule -/

/-- Settles O36: what a step can be gives the only writer of the flag, and running each instruction with the flag replaced
its only readers. -/
theorem onlyCompareWritesZFAndOnlyJumpsReadIt : Obligations.OnlyCompareWritesZFAndOnlyJumpsReadIt := by
  refine ⟨?constructed, ?compare, ?writer, ?jumps, ?readers⟩
  case constructed =>
    intro nreg c image s h
    rw [eq_initial_of_construct h]
    rfl
  case compare => exact fun s a b ha hb => ⟨_, exec_compare_of_lt ha hb, rfl⟩
  case writer => exact fun s t => step_zf_ne_current
  case jumps => exact fun s n => ⟨_, _, _, _, rfl, rfl, rfl, rfl, rfl, rfl, rfl, rfl⟩
  case readers => exact fun i s t z => exec_setZf z

end Sys2Proof.Machine
end

section
/-! SUPPORT. The regions of R44: when an access can straddle them, and the table of `region`. -/

namespace Sys2Proof.Machine

/-! ### When an access straddles the regions (R44) -/

/-- ROM ends within memory: an access inside it is inside memory. -/
theorem romSize_le_totalSize (c : Config) : c.romSize ≤ c.totalSize := Nat.le_add_right _ _

/-- A straddling access has its first byte in ROM and its last in RAM, so neither is empty. -/
theorem regions_nonempty_of_straddle {c : Config} {a : Nat} (h : region c a = .straddle) :
    1 ≤ c.romSize ∧ 1 ≤ c.ramSize := by
  obtain ⟨hfirst, hlast, hinside⟩ := (region_straddle_iff c a).mp h
  rw [Config.totalSize] at hinside
  omega

/-- An aligned word that begins below a multiple of 4 ends below it. -/
theorem unaligned_of_straddle {c : Config} {a : Nat} (h : region c a = .straddle) (hrom : c.romSize % 4 = 0) :
    a % 4 ≠ 0 := by
  obtain ⟨hfirst, hlast, -⟩ := (region_straddle_iff c a).mp h
  omega

/-! ### The rule -/

/-- Settles O44: the four regions by their equations; an access is inside memory when it is inside ROM. -/
theorem regionsRouteEveryAddress : Obligations.RegionsRouteEveryAddress := by
  intro c a
  refine ⟨region_outside_iff c a, ?rom, ?ram, region_straddle_iff c a, regions_nonempty_of_straddle,
    unaligned_of_straddle⟩
  case rom =>
    rw [region_rom_iff]
    exact ⟨fun h => ⟨h.trans_le (romSize_le_totalSize c), h⟩, And.right⟩
  case ram => rw [region_ram_iff, and_comm]

end Sys2Proof.Machine
end

section
/-! SUPPORT. The fields of an instruction word as numbers (R71, R72): the sum that encodes them, the quotients and remainders
that decode them, and the four bytes they lie in. -/

namespace Sys2Proof

/-! ### Words and fields (R72) -/

/-- Bits put before `n` others weigh `2^n` times as much. -/
theorem toNat_append_eq_mul_add {m n : Nat} (x : BitVec m) (y : BitVec n) :
    (x ++ y).toNat = x.toNat * 2 ^ n + y.toNat := by
  rw [BitVec.toNat_append, ← Nat.shiftLeft_add_eq_or_of_lt y.isLt, Nat.shiftLeft_eq]

theorem toNat_encodeFields (f : Fields) :
    (encodeFields f).toNat =
      f.opcode.toNat * 2 ^ 24 + f.regA.toNat * 2 ^ 20 + f.regB.toNat * 2 ^ 16 + f.imm.toNat := by
  simp only [encodeFields, toNat_append_eq_mul_add]
  omega

/-- No remainder: the opcode is the top of the word. -/
theorem toNat_opcode_decodeFields (w : Word) : (decodeFields w).opcode.toNat = w.toNat / 2 ^ 24 := by
  have hbound : w.toNat / 2 ^ 24 < 2 ^ 8 := by omega
  simpa [decodeFields, Nat.shiftRight_eq_div_pow] using hbound

theorem toNat_regA_decodeFields (w : Word) : (decodeFields w).regA.toNat = w.toNat / 2 ^ 20 % 2 ^ 4 := by
  simp [decodeFields, Nat.shiftRight_eq_div_pow]

theorem toNat_regB_decodeFields (w : Word) : (decodeFields w).regB.toNat = w.toNat / 2 ^ 16 % 2 ^ 4 := by
  simp [decodeFields, Nat.shiftRight_eq_div_pow]

theorem toNat_imm_decodeFields (w : Word) : (decodeFields w).imm.toNat = w.toNat % 2 ^ 16 := by
  simp [decodeFields]

/-- The fields cover the word: its quotients and remainders sum up to it again. -/
@[simp] theorem encodeFields_decodeFields (w : Word) : encodeFields (decodeFields w) = w := by
  apply BitVec.eq_of_toNat_eq
  rw [toNat_encodeFields, toNat_opcode_decodeFields, toNat_regA_decodeFields, toNat_regB_decodeFields,
    toNat_imm_decodeFields]
  omega

/-- Settles O1: the inverse laws and the value of an encoded tuple. -/
theorem fieldTuplesAndWordsCorrespond : Obligations.FieldTuplesAndWordsCorrespond :=
  ⟨encodeFields_decodeFields, decodeFields_encodeFields, toNat_encodeFields⟩

/-! ### Bytes of an instruction word (R71) -/

/-- Byte `k` as a number (R41). -/
theorem Word.toNat_byte (v : Word) (k : Nat) : (Word.byte v k).toNat = v.toNat / 2 ^ (8 * k) % 2 ^ 8 := by
  simp [Word.byte, Nat.shiftRight_eq_div_pow]

theorem toNat_byte_zero_encodeFields (f : Fields) :
    (Word.byte (encodeFields f) 0).toNat = f.imm.toNat % 2 ^ 8 := by
  rw [Word.toNat_byte, toNat_encodeFields]
  omega

theorem toNat_byte_one_encodeFields (f : Fields) :
    (Word.byte (encodeFields f) 1).toNat = f.imm.toNat / 2 ^ 8 := by
  rw [Word.toNat_byte, toNat_encodeFields]
  omega

theorem toNat_byte_two_encodeFields (f : Fields) :
    (Word.byte (encodeFields f) 2).toNat = f.regA.toNat * 16 + f.regB.toNat := by
  rw [Word.toNat_byte, toNat_encodeFields]
  omega

theorem toNat_byte_three_encodeFields (f : Fields) :
    (Word.byte (encodeFields f) 3).toNat = f.opcode.toNat := by
  rw [Word.toNat_byte, toNat_encodeFields]
  omega

namespace Machine

/-- Settles O2: the fields by their quotients and remainders; memory gives back the bytes of the stored word. -/
theorem instructionFieldsInWordAndMemory : Obligations.InstructionFieldsInWordAndMemory := by
  refine ⟨fun w => ⟨toNat_opcode_decodeFields w, toNat_regA_decodeFields w, toNat_regB_decodeFields w,
    toNat_imm_decodeFields w⟩, fun m p f => ⟨?imm_low, ?imm_high, ?registers, ?opcode⟩⟩
  case imm_low => simp [Memory.read_writeWord, toNat_byte_zero_encodeFields]
  case imm_high => simp [Memory.read_writeWord, toNat_byte_one_encodeFields]
  case registers => simp [Memory.read_writeWord, toNat_byte_two_encodeFields]
  case opcode => simp [Memory.read_writeWord, toNat_byte_three_encodeFields]

end Machine

end Sys2Proof
end

section
/-! SUPPORT. The instructions that write `x[A]` from their operands (R7): the encoding of any mnemonic, the effect and the
fault of an update, and the two shapes of rule made of them. The moves of 40_move.md are the updates that ignore the old
content. -/

namespace Sys2Proof

/-- The opcode of a mnemonic decodes to that mnemonic, whatever the other fields hold (R75, R77). -/
theorem decodeWord_encodeFields_opcodeOf {om : OpMap} (h : om.wf) (m : Mnemonic) (a b : RegIndex) (n : Imm) :
    decodeWord om (encodeFields ⟨om.opcodeOf m, a, b, n⟩) = .ok (instrOf ⟨om.opcodeOf m, a, b, n⟩ m) := by
  rw [decodeWord_ok_iff, decodeFields_encodeFields]
  exact ⟨m, select_opcodeOf h m, rfl⟩

namespace Machine

/-! ### An update of a register: effect with frame, fault (R76) -/

theorem stopsWith_failed (f : FatalError) (s : State) : stopsWith f s (.next (s.failed f)) :=
  ⟨s.failed f, rfl, rfl, rfl, fun _ => rfl, rfl, fun _ => rfl, rfl, rfl⟩

theorem updateReg_completes {f : Word → Word → Word} {a : RegIndex} {o : Operand} {s : State} {post : Word → Prop}
    (hused : ∀ r ∈ a :: o.used, r.toNat < s.nreg) (hpost : post (f (s.reg a) (o.word s))) :
    ∃ t, updateReg f a o s = .next t ∧ post (t.reg a) ∧ sameRegsExcept a s t ∧
      pcAdvanced s t ∧ t.zf = s.zf ∧ sameStatus s t ∧ sameMemory s t ∧ sameConfig s t := by
  refine ⟨(s.setReg a (f (s.reg a) (o.word s))).advance, ?next, ?result, ?others, ?pc, rfl, ⟨rfl, rfl⟩,
    fun _ => rfl, rfl, State.nreg_setReg ..⟩
  case next => rw [updateReg_eq, if_pos hused]
  case result => rwa [State.reg_advance, State.reg_setReg_self s a _ (hused a List.mem_cons_self)]
  case others => exact fun r hr => State.reg_setReg_of_ne s a r _ hr
  case pc => exact State.toNat_pc_advance _

theorem updateReg_stops {f : Word → Word → Word} {a : RegIndex} {o : Operand} {s : State} {r : RegIndex}
    (hr : r ∈ a :: o.used) (hmissing : s.nreg ≤ r.toNat) :
    stopsWith .invalidRegisterIndex s (updateReg f a o s) := by
  rw [updateReg_eq, if_neg fun hused => (hused r hr).not_ge hmissing]
  exact stopsWith_failed _ s

/-! ### The shapes of rule (R7) -/

theorem twoRegisterRule_of_updateReg {m : Mnemonic} {instr : RegIndex → RegIndex → Instr}
    {f : Word → Word → Word} {post : Word → Word → Word → Prop}
    (hinstr : ∀ fs : Fields, instrOf fs m = instr fs.regA fs.regB)
    (hexec : ∀ a b s, exec (instr a b) s = updateReg f a (.reg b) s) (hpost : ∀ x y, post x y (f x y)) :
    twoRegisterRule m instr post := by
  refine ⟨?encoding, ?effect, ?fault⟩
  case encoding =>
    intro om hwf a b n
    rw [decodeWord_encodeFields_opcodeOf hwf, hinstr]
  case effect =>
    intro s a b ha hb
    rw [hexec]
    exact updateReg_completes (by simp [Operand.used, ha, hb]) (hpost _ _)
  case fault =>
    intro s a b hmissing
    rw [hexec]
    obtain ha | hb := hmissing
    · exact updateReg_stops List.mem_cons_self ha
    · exact updateReg_stops (List.mem_cons_of_mem a List.mem_cons_self) hb

theorem registerImmediateRule_of_updateReg {m : Mnemonic} {instr : RegIndex → Imm → Instr}
    {f : Word → Word → Word} {post : Word → Imm → Word → Prop}
    (hinstr : ∀ fs : Fields, instrOf fs m = instr fs.regA fs.imm)
    (hexec : ∀ a n s, exec (instr a n) s = updateReg f a (.imm n) s) (hpost : ∀ x n, post x n (f x (imm32 n))) :
    registerImmediateRule m instr post := by
  refine ⟨?encoding, ?effect, ?fault⟩
  case encoding =>
    intro om hwf a b n
    rw [decodeWord_encodeFields_opcodeOf hwf, hinstr]
  case effect =>
    intro s a n ha
    rw [hexec]
    exact updateReg_completes (by simp [Operand.used, ha]) (hpost _ n)
  case fault =>
    intro s a n ha
    rw [hexec]
    exact updateReg_stops List.mem_cons_self ha

/-! ### The moves (R100, R101) -/

/-- An assignment is the update that ignores the old content. -/
theorem assignReg_eq_updateReg (a : RegIndex) (o : Operand) (s : State) :
    assignReg a o s = updateReg (fun _ y => y) a o s := by
  rw [assignReg_eq, updateReg_eq]

/-- Settles O23: both moves are assignments, of the content of `x[B]` and of the zero-extended immediate. -/
theorem movesCopyARegisterOrAZeroExtendedImmediate : Obligations.MovesCopyARegisterOrAZeroExtendedImmediate :=
  ⟨twoRegisterRule_of_updateReg (fun _ => rfl) (fun a b => assignReg_eq_updateReg a (.reg b)) (fun _ _ => rfl),
    registerImmediateRule_of_updateReg (fun _ => rfl) (fun a n => assignReg_eq_updateReg a (.imm n))
      (fun _ n => toNat_imm32 n)⟩

end Machine

end Sys2Proof
end

section
/-! SUPPORT. Addition and subtraction modulo 2^32 (41_arithmetic.md): the two results as numbers, and the four instructions
as updates of `x[A]` by them. -/

namespace Sys2Proof.Machine

/-- The difference as a number: no borrow, or one borrow of 2^32 (R112, R113). -/
theorem toNat_sub_eq_ite (x y : Word) :
    (x - y).toNat = if y.toNat ≤ x.toNat then x.toNat - y.toNat else x.toNat + 2 ^ 32 - y.toNat := by
  split
  case isTrue hle => exact BitVec.toNat_sub_of_le hle
  case isFalse hlt =>
    rw [BitVec.toNat_sub_of_lt (BitVec.lt_def.mpr (Nat.lt_of_not_le hlt))]
    omega

/-- Settles O24: both instructions are updates of `x[A]` by the content of `x[B]`, with the sum and the difference as numbers. -/
theorem addAndSubOfRegistersWrap : Obligations.AddAndSubOfRegistersWrap :=
  ⟨twoRegisterRule_of_updateReg (fun _ => rfl) (fun _ _ _ => rfl) BitVec.toNat_add,
    twoRegisterRule_of_updateReg (fun _ => rfl) (fun _ _ _ => rfl) toNat_sub_eq_ite⟩

/-- Settles O25: both instructions are updates of `x[A]` by the zero-extended immediate, which as a number is the immediate. -/
theorem addAndSubOfImmediatesWrap : Obligations.AddAndSubOfImmediatesWrap := by
  refine ⟨registerImmediateRule_of_updateReg (fun _ => rfl) (fun _ _ _ => rfl) ?sum,
    registerImmediateRule_of_updateReg (fun _ => rfl) (fun _ _ _ => rfl) ?difference⟩
  case sum =>
    intro x n
    rw [BitVec.toNat_add, toNat_imm32]
  case difference =>
    intro x n
    rw [toNat_sub_eq_ite, toNat_imm32]

end Sys2Proof.Machine
end

section
/-! SUPPORT. The bitwise operations (42_logic_shift.md): the bits of the two results, those of the zero-extended immediate, and
the four instructions as updates of `x[A]` by them. -/

namespace Sys2Proof.Machine

/-! ### Bits of words (R120 to R123) -/

theorem getLsbD_and_iff (x y : Word) (k : Nat) :
    (x &&& y).getLsbD k = true ↔ x.getLsbD k = true ∧ y.getLsbD k = true := by
  rw [BitVec.getLsbD_and, Bool.and_eq_true]

theorem getLsbD_or_iff (x y : Word) (k : Nat) :
    (x ||| y).getLsbD k = true ↔ x.getLsbD k = true ∨ y.getLsbD k = true := by
  rw [BitVec.getLsbD_or, Bool.or_eq_true]

/-- Zero-extension keeps every bit: those above the immediate are 0 on both sides (R73). -/
theorem getLsbD_imm32 (n : Imm) (k : Nat) : (imm32 n).getLsbD k = n.getLsbD k := by
  rw [BitVec.getLsbD, BitVec.getLsbD, toNat_imm32]

theorem getLsbD_imm32_of_ge (n : Imm) {k : Nat} (hk : 16 ≤ k) : (imm32 n).getLsbD k = false := by
  rw [getLsbD_imm32, BitVec.getLsbD_of_ge n k hk]

/-! ### The rules -/

/-- Settles O26: both instructions are updates of `x[A]` by the content of `x[B]`, with AND and OR read bit by bit. -/
theorem andAndOrOfRegistersAreBitwise : Obligations.AndAndOrOfRegistersAreBitwise :=
  ⟨twoRegisterRule_of_updateReg (fun _ => rfl) (fun _ _ _ => rfl) (fun x y k _ => getLsbD_and_iff x y k),
    twoRegisterRule_of_updateReg (fun _ => rfl) (fun _ _ _ => rfl) (fun x y k _ => getLsbD_or_iff x y k)⟩

/-- Settles O27: both instructions are updates of `x[A]` by the zero-extended immediate, whose low half is the immediate and
whose high half is 0, so AND clears the high half and OR keeps it. -/
theorem andAndOrOfImmediatesAreBitwise : Obligations.AndAndOrOfImmediatesAreBitwise := by
  refine ⟨registerImmediateRule_of_updateReg (fun _ => rfl) (fun _ _ _ => rfl) fun x n => ⟨?andLow, ?andHigh⟩,
    registerImmediateRule_of_updateReg (fun _ => rfl) (fun _ _ _ => rfl) fun x n => ⟨?orLow, ?orHigh⟩⟩
  case andLow =>
    intro k _
    rw [getLsbD_and_iff, getLsbD_imm32]
  case andHigh =>
    intro k hk _
    rw [BitVec.getLsbD_and, getLsbD_imm32_of_ge n hk, Bool.and_false]
  case orLow =>
    intro k _
    rw [getLsbD_or_iff, getLsbD_imm32]
  case orHigh =>
    intro k hk _
    rw [BitVec.getLsbD_or, getLsbD_imm32_of_ge n hk, Bool.or_false]

end Sys2Proof.Machine
end

section
/-! SUPPORT. The compare and the jumps (43_compare_branch.md): the fault of a compare, and the one rule of the three jumps, made
of the shape `jumpWhen` and the condition each of them gives it. -/

namespace Sys2Proof.Machine

/-! ### The compare (R130) -/

theorem exec_compare_of_missing {s : State} {a b : RegIndex} (hmissing : s.nreg ≤ a.toNat ∨ s.nreg ≤ b.toNat) :
    exec (.compare a b) s = .next (s.failed .invalidRegisterIndex) := by
  have hused : ¬ (a.toNat < s.nreg ∧ b.toNat < s.nreg) := by omega
  exact (compareRegs_eq a b s).trans (if_neg hused)

/-- Settles O29: the next state is the advanced one with the Boolean equality of the two registers as `ZF`. -/
theorem compareSetsZFExactlyOnEquality : Obligations.CompareSetsZFExactlyOnEquality := by
  refine ⟨fun om hwf a b n => decodeWord_encodeFields_opcodeOf hwf .compare a b n, ?effect, ?fault⟩
  case effect =>
    intro s a b ha hb
    exact ⟨_, exec_compare_of_lt ha hb, beq_iff_eq, State.toNat_pc_advance _, fun _ => rfl, ⟨rfl, rfl⟩,
      fun _ => rfl, rfl, rfl⟩
  case fault =>
    intro s a b hmissing
    rw [exec_compare_of_missing hmissing]
    exact stopsWith_failed _ s

/-! ### The jumps (R131 to R133) -/

/-- The frame of a jump, taken or not: `pc` is the one field written. -/
theorem jumpWhen_completes (taken : Bool) (n : Imm) (s : State) :
    ∃ t, jumpWhen taken n s = .next t ∧ (taken = true → t.pc.toNat = n.toNat) ∧ (¬ taken = true → pcAdvanced s t) ∧
      sameRegs s t ∧ t.zf = s.zf ∧ sameStatus s t ∧ sameMemory s t ∧ sameConfig s t := by
  cases taken with
  | true =>
    exact ⟨s.setPc (imm32 n), rfl, fun _ => toNat_imm32 n, fun h => absurd rfl h, fun _ => rfl, rfl, ⟨rfl, rfl⟩,
      fun _ => rfl, rfl, rfl⟩
  | false =>
    exact ⟨s.advance, rfl, fun h => absurd h Bool.false_ne_true, fun _ => State.toNat_pc_advance s, fun _ => rfl, rfl,
      ⟨rfl, rfl⟩, fun _ => rfl, rfl, rfl⟩

theorem jumpRule_of_jumpWhen {m : Mnemonic} {instr : Imm → Instr} {taken : State → Prop} {cond : State → Bool}
    (hinstr : ∀ fs : Fields, instrOf fs m = instr fs.imm)
    (hexec : ∀ n s, exec (instr n) s = jumpWhen (cond s) n s) (hcond : ∀ s, cond s = true ↔ taken s) :
    jumpRule m instr taken := by
  refine ⟨?encoding, ?effect⟩
  case encoding =>
    intro om hwf a b n
    rw [decodeWord_encodeFields_opcodeOf hwf, hinstr]
  case effect =>
    intro s n
    rw [hexec, ← hcond]
    exact jumpWhen_completes (cond s) n s

/-- Settles O30: the three jumps are `jumpWhen` under the constant condition, under `ZF` and under its negation. -/
theorem jumpsGoToTheImmediate : Obligations.JumpsGoToTheImmediate :=
  ⟨jumpRule_of_jumpWhen (cond := fun _ => true) (fun _ => rfl) (fun _ _ => rfl) (fun _ => iff_of_true rfl trivial),
    jumpRule_of_jumpWhen (cond := State.zf) (fun _ => rfl) (fun _ _ => rfl) (fun _ => Iff.rfl),
    jumpRule_of_jumpWhen (cond := fun s => !s.zf) (fun _ => rfl) (fun _ _ => rfl) (fun s => (Bool.not_eq_true' s.zf).to_iff)⟩

end Sys2Proof.Machine
end

section
/-! SUPPORT. The system instruction `no-op` (45_system.md): it completes in every state, and its next state is the advanced one. -/

namespace Sys2Proof.Machine

theorem exec_noOp (s : State) : exec .noOp s = .next s.advance := finish_ok s s.advance

/-- Settles O35: the next state is the advanced one, and advancing writes `pc` alone. -/
theorem noOpOnlyAdvancesPc : Obligations.NoOpOnlyAdvancesPc := by
  refine ⟨fun om hwf a b n => decodeWord_encodeFields_opcodeOf hwf .noOp a b n, ?effect⟩
  case effect =>
    intro s
    exact ⟨s.advance, exec_noOp s, State.toNat_pc_advance s, fun _ => rfl, rfl, ⟨rfl, rfl⟩, fun _ => rfl, rfl, rfl⟩

end Sys2Proof.Machine
end

section
/-! SUPPORT. The decoder and the encoder on instructions (30_encoding.md sections 3 and 5): which fields of a word make an
instruction, the canonical word as a field tuple, and decoding as the inverse of encoding. -/

namespace Sys2Proof

/-! ### The instruction a mnemonic makes of a word's fields (R75, R76) -/

/-- The used fields of an instruction are those of a field tuple. -/
def Instr.HasFields (i : Instr) (f : Fields) : Prop :=
  (∀ a, i.fieldA = some a → a = f.regA) ∧ (∀ b, i.fieldB = some b → b = f.regB) ∧
    ∀ n, i.fieldImm = some n → n = f.imm

theorem instrOf_hasFields (f : Fields) (m : Mnemonic) : (instrOf f m).HasFields f := by
  cases m <;> simp [instrOf, Instr.HasFields, Instr.fieldA, Instr.fieldB, Instr.fieldImm]

/-- An instruction is determined by its mnemonic and its used fields: the ignored ones do not enter (R77). -/
theorem instrOf_eq_of_hasFields {i : Instr} {f : Fields} (h : i.HasFields f) : instrOf f i.mnemonic = i := by
  obtain ⟨ha, hb, hn⟩ := h
  cases i <;> simp_all [instrOf, Instr.mnemonic, Instr.fieldA, Instr.fieldB, Instr.fieldImm]

/-- A field an instruction uses, with the value another word holds there, when the two words agree in it. -/
theorem eq_field_of_agree {α : Type} {field : Option α} {v w : α} (hv : ∀ x, field = some x → x = v)
    (hw : field ≠ none → w = v) : ∀ x, field = some x → x = w := by
  intro x hx
  rw [hv x hx, hw (by simp [hx])]

/-- Settles O4: the two words select the same mnemonic, and the instruction has the used fields of both. -/
theorem ignoredFieldsDoNotMatter : Obligations.IgnoredFieldsDoNotMatter := by
  intro om v w i hv ho hA hB hImm
  obtain ⟨m, hm, rfl⟩ := (decodeWord_ok_iff om v i).mp hv
  obtain ⟨ha, hb, hn⟩ := instrOf_hasFields (decodeFields v) m
  have hw : (instrOf (decodeFields v) m).HasFields (decodeFields w) :=
    ⟨eq_field_of_agree ha hA, eq_field_of_agree hb hB, eq_field_of_agree hn hImm⟩
  have hi := instrOf_eq_of_hasFields hw
  rw [instrOf_mnemonic] at hi
  exact (decodeWord_ok_iff om w _).mpr ⟨m, ho ▸ hm, hi.symm⟩

theorem decodeWord_of_opcodeOf_eq {om : OpMap} (h : om.wf) {m : Mnemonic} {w : Word}
    (hm : om.opcodeOf m = (decodeFields w).opcode) : decodeWord om w = .ok (instrOf (decodeFields w) m) :=
  (decodeWord_ok_iff om w _).mpr ⟨m, hm ▸ select_opcodeOf h m, rfl⟩

theorem decodeWord_unrecognized {om : OpMap} {w : Word} (h : ∀ m, om.opcodeOf m ≠ (decodeFields w).opcode) :
    decodeWord om w = .error (.unrecognizedOpcode (decodeFields w).opcode) := by
  rw [decodeWord, (select_eq_none_iff _ _).mpr h]

/-- Settles O5: the instruction is the one the mnemonic makes of the word's fields. -/
theorem selectionIsByOpcodeAlone : Obligations.SelectionIsByOpcodeAlone :=
  fun _ w => ⟨fun hwf m hm => ⟨instrOf (decodeFields w) m, decodeWord_of_opcodeOf_eq hwf hm, instrOf_mnemonic _ m,
    instrOf_hasFields _ m⟩, decodeWord_unrecognized⟩

/-! ### The canonical word (R72, R81) -/

/-- The fields of the canonical word: the opcode of the mnemonic, the used fields, 0 in the ignored ones. -/
def Instr.canonicalFields (om : OpMap) (i : Instr) : Fields :=
  ⟨om.opcodeOf i.mnemonic, i.fieldA.getD 0, i.fieldB.getD 0, i.fieldImm.getD 0⟩

theorem encode_eq_encodeFields (om : OpMap) (i : Instr) : encode om i = encodeFields (i.canonicalFields om) := by
  cases i <;> rfl

theorem canonicalFields_hasFields (om : OpMap) (i : Instr) : i.HasFields (i.canonicalFields om) := by
  refine ⟨?_, ?_, ?_⟩ <;> intro x hx <;> simp [Instr.canonicalFields, hx]

theorem decodeWord_encode {om : OpMap} (h : om.wf) (i : Instr) : decodeWord om (encode om i) = .ok i := by
  rw [encode_eq_encodeFields, Instr.canonicalFields, decodeWord_encodeFields_opcodeOf h]
  exact congrArg Except.ok (instrOf_eq_of_hasFields (canonicalFields_hasFields om i))

/-- The four bytes of a word, in front of any others, decode as the word does (R70). -/
theorem decode_bytesOfWord_append {om : OpMap} {w : Word} {i : Instr} (h : decodeWord om w = .ok i)
    (rest : List Byte) : decode om (bytesOfWord w ++ rest) = .ok (i, rest) := by
  simp [bytesOfWord, decode, h]

/-- Settles O3: the canonical word holds the mnemonic's opcode and the used fields, which determine the instruction; its four
bytes make up the word. -/
theorem decodeOfEncodeIsTheInstruction : Obligations.DecodeOfEncodeIsTheInstruction :=
  fun _ hwf i => ⟨decodeWord_encode hwf i, decode_bytesOfWord_append (decodeWord_encode hwf i)⟩

/-- Settles O6: the words are literals, decoded by evaluation. -/
theorem defaultTableWordsDecode : Obligations.DefaultTableWordsDecode := by
  unfold Obligations.DefaultTableWordsDecode
  decide

/-- Settles O7: for each constructor the statement has the operands of its mnemonic's form, and both sides put the same fields
into a word. -/
theorem assembledStatementsEncodeInstructions : Obligations.AssembledStatementsEncodeInstructions := by
  intro om program base i
  cases i <;> rfl

end Sys2Proof
end

section
/-! SUPPORT. Memory words and the register file: byte `k` of a word read, and the laws of the memory controller and of the
register file (20_memory.md sections 1 and 4, 10_state.md section 1). -/

namespace Sys2Proof

/-- The bytes of a word made of four bytes are those bytes (R41). -/
theorem Word.byte_wordOfBytes (bs : Nat → Byte) {k : Nat} (hk : k < 4) :
    Word.byte (wordOfBytes (bs 0) (bs 1) (bs 2) (bs 3)) k = bs k := by
  apply BitVec.eq_of_toNat_eq
  rw [Word.toNat_byte, toNat_wordOfBytes]
  obtain rfl | rfl | rfl | rfl : k = 0 ∨ k = 1 ∨ k = 2 ∨ k = 3 := by omega
  all_goals omega

namespace Machine

theorem Memory.byte_readWord (m : Memory) (n : Nat) {k : Nat} (hk : k < 4) :
    Word.byte (Memory.readWord m n) k = Memory.read m (n + k) :=
  Word.byte_wordOfBytes (fun j => Memory.read m (n + j)) hk

/-- Settles O47: byte `k` of a read word is the byte at `n + k`, which the store has written or left. -/
theorem overlappingAccessesShareBytes : Obligations.OverlappingAccessesShareBytes := by
  intro m a n v k hk
  rw [Memory.byte_readWord _ _ hk, Memory.byte_readWord _ _ hk, Memory.read_writeWord]
  exact ⟨fun hle hlt => if_pos ⟨hle, hlt⟩, fun hout => if_neg (by omega)⟩

/-! ### The memory controller (R46, R47) -/

theorem memRead_of_region {s : State} {a : Word} (h : region s.cfg a.toNat = .rom ∨ region s.cfg a.toNat = .ram) :
    memRead s a = .ok (Memory.readWord s.mem a.toNat) := by
  rw [memRead_eq, if_pos h]

theorem memWrite_of_ram {s : State} {a : Word} (h : region s.cfg a.toNat = .ram) (v : Word) :
    memWrite s a v = .ok (s.setMem (Memory.writeWord s.mem a.toNat v)) := by
  rw [memWrite_eq, if_pos h]

/-- Settles O45: the written memory gives the word back, and the address stays in RAM. -/
theorem storedWordIsReadBack : Obligations.StoredWordIsReadBack := by
  intro s a v hram
  refine ⟨_, memWrite_of_ram hram v, ?_⟩
  rw [memRead_of_region (by exact .inr hram), State.mem_setMem, Memory.readWord_writeWord_self]

/-- Settles O46: past the end both accesses find `outside`; inside, a first byte in ROM is neither `ram` nor `outside`. -/
theorem romWritesAndOutsideAccessesFail : Obligations.RomWritesAndOutsideAccessesFail := by
  intro s a v
  refine ⟨fun hout => ?outside, fun hin hrom => ?rom⟩
  case outside =>
    have hregion := (region_outside_iff s.cfg a.toNat).mpr hout
    simp [memRead, memWrite, hregion]
  case rom =>
    have hram : region s.cfg a.toNat ≠ .ram := fun h => ((region_ram_iff _ _).mp h).1.not_gt hrom
    have hout : region s.cfg a.toNat ≠ .outside := fun h => ((region_outside_iff _ _).mp h).not_gt hin
    rw [memWrite_eq, if_neg hram, if_neg hout]

/-! ### The register file (R12) -/

theorem regGet_setReg_of_ne {s : State} {i r : RegIndex} (v : Word) (h : r ≠ i) :
    regGet (s.setReg i v) r = regGet s r := by
  rw [regGet, regGet, State.nreg_setReg, State.reg_setReg_of_ne s i r v h]

theorem regGet_of_le {s : State} {i : RegIndex} (h : s.nreg ≤ i.toNat) : regGet s i = .error .invalidRegisterIndex :=
  if_neg h.not_gt

theorem regSet_of_le {s : State} {i : RegIndex} (h : s.nreg ≤ i.toNat) (v : Word) :
    regSet s i v = .error .invalidRegisterIndex :=
  if_neg h.not_gt

/-- Settles O49: writing and reading an existing register, and the two refusals of a missing one. -/
theorem registerFileChecksItsIndex : Obligations.RegisterFileChecksItsIndex := by
  refine fun s i v => ⟨fun hi => ⟨s.setReg i v, regSet_of_lt hi v, ?_, State.nreg_setReg s i v,
    fun r => regGet_setReg_of_ne v⟩, fun hi => ⟨regGet_of_le hi, regSet_of_le hi v⟩⟩
  rw [regGet_of_lt (by rwa [State.nreg_setReg]), State.reg_setReg_self s i v hi]

end Machine

end Sys2Proof
end

section
/-! SUPPORT. The ways a step begins (10_state.md section 7): a halted machine, each outcome of the fetch, an opcode of no
mnemonic, and the instruction at `pc`; then what of this a placed word changes. -/

namespace Sys2Proof.Machine

/-! ### One step, by what it finds (R22, R23) -/

theorem step_of_halted {s : State} (h : s.halted = true) : step s = .next s := if_pos h

theorem step_of_fetch_error {s : State} {f : FatalError} (hrun : s.running) (hf : fetch s = .error f) :
    step s = .next (s.failed f) := by
  rw [State.running] at hrun
  simp [step, hrun, hf, raise]

theorem step_of_unrecognized {s : State} {w : Word} (hrun : s.running) (hf : fetch s = .ok w)
    (hw : ∀ m, s.cfg.opmap.opcodeOf m ≠ (decodeFields w).opcode) : step s = unrecognized s := by
  rw [State.running] at hrun
  simp [step, hrun, hf, decodeWord_unrecognized hw]

theorem step_of_current {s : State} {i : Instr} (hrun : s.running) (hc : s.current = some i) : step s = exec i s := by
  obtain ⟨w, hf, hd⟩ := (current_eq_some_iff s i).mp hc
  rw [State.running] at hrun
  simp [step, hrun, hf, hd]

/-- Settles O16: the alignment check comes first and does not read memory. -/
theorem misalignedPcRaisesMisalignedFetch : Obligations.MisalignedPcRaisesMisalignedFetch := by
  intro s hrun hpc
  refine step_of_fetch_error hrun ?_
  rw [fetch_eq, if_neg hpc]

/-- Settles O17: the check of the entry point, or else the read, answers `OutOfBounds`. -/
theorem fetchOutsideTheRegionsRaisesOutOfBounds : Obligations.FetchOutsideTheRegionsRaisesOutOfBounds := by
  intro s hrun hpc hbad
  refine step_of_fetch_error hrun ?_
  rw [fetch_eq, if_pos hpc, memRead_eq]
  split
  case isTrue => rfl
  case isFalse hfirst =>
    obtain hout | hstraddle | hno := hbad
    · simp [hout]
    · simp [hstraddle]
    · exact absurd hno hfirst

/-- Settles O18: the policy `fault` makes an opcode of no mnemonic the fatal error `InvalidOpcode`. -/
theorem unrecognizedOpcodeRaisesInvalidOpcode : Obligations.UnrecognizedOpcodeRaisesInvalidOpcode := by
  intro s w hrun hf hw hpolicy
  rw [step_of_unrecognized hrun hf hw, unrecognized, hpolicy]
  rfl

/-! ### The instruction at `pc` -/

theorem current_of_fetched_word {s : State} {i : Instr} (hpc : s.pc.toNat % 4 = 0)
    (hregion : region s.cfg s.pc.toNat = .rom ∨ region s.cfg s.pc.toNat = .ram) (hfirst : ¬ s.noFirstInstruction)
    (hd : decodeWord s.cfg.opmap (Memory.readWord s.mem s.pc.toNat) = .ok i) : s.current = some i :=
  (current_eq_some_iff s i).mpr ⟨_, (fetch_ok_iff s _).mpr ⟨hpc, hfirst, hregion, rfl⟩, hd⟩

/-- Four bytes decode as the word they make up. -/
theorem decodeWord_of_decode_four {om : OpMap} {b0 b1 b2 b3 : Byte} {i : Instr}
    (h : decode om [b0, b1, b2, b3] = .ok (i, [])) : decodeWord om (wordOfBytes b0 b1 b2 b3) = .ok i := by
  rw [decode] at h
  split at h
  case h_1 hd =>
    cases h
    exact hd
  case h_2 => cases h

/-- Settles O14: the four bytes at `pc` make up the fetched word, and the step runs what that word decodes to. -/
theorem stepRunsTheDecodedInstruction : Obligations.StepRunsTheDecodedInstruction :=
  fun _ _ hrun hpc hregion hfirst hd =>
    step_of_current hrun (current_of_fetched_word hpc hregion hfirst (decodeWord_of_decode_four hd))

/-- Settles O50: placing a word changes the four bytes at `pc` only, so the fetch finds it there under the same checks. -/
theorem placedWordIsRunNext : Obligations.PlacedWordIsRunNext := by
  intro s nbits w i hrun hpc hregion hfirst hd
  refine ⟨?runs, ?outside, rfl⟩
  case runs =>
    refine step_of_current hrun (current_of_fetched_word hpc hregion hfirst ?_)
    rw [State.withFetchWord, State.mem_setMem, State.pc_setMem, Memory.readWord_writeWord_self]
    exact hd
  case outside =>
    intro n hn
    rw [State.withFetchWord, State.byteAt_setMem, Memory.read_writeWord, if_neg (by omega)]
    rfl

end Sys2Proof.Machine
end

section
/-! SUPPORT. Construction (70_reset_and_hazards.md section 1): the reset state it gives, which satisfies the invariant, and the
first step of a machine without a first instruction. -/

namespace Sys2Proof.Machine

theorem construct_of_length {nreg : Nat} {c : Config} {image : List Byte} (h : image.length = c.romSize) :
    construct nreg c image = .next (State.initial nreg c image) := if_pos h

/-- Settles O9: the length is all that construction checks. -/
theorem wrongImageLengthFailsConstruction : Obligations.WrongImageLengthFailsConstruction :=
  fun _ _ _ h => if_neg h

/-! ### The reset state (R190) -/

theorem State.nreg_initial (nreg : Nat) (c : Config) (image : List Byte) : (State.initial nreg c image).nreg = nreg :=
  List.length_replicate

theorem State.reg_initial (nreg : Nat) (c : Config) (image : List Byte) (r : RegIndex) :
    (State.initial nreg c image).reg r = 0 :=
  (List.getD_eq_getElem?_getD ..).trans (List.getElem?_getD_replicate_default_eq _ nreg r.toNat)

theorem State.byteAt_initial (nreg : Nat) (c : Config) (image : List Byte) (n : Nat) :
    (State.initial nreg c image).byteAt n = image.getD n 0 :=
  (Memory.read_ofImage image 0 n).trans (if_pos n.zero_le)

/-- Settles O8: the fields of the reset state; its memory reads as the image, and 0 past the image's end. -/
theorem constructionGivesTheResetState : Obligations.ConstructionGivesTheResetState := by
  intro nreg c image hlen
  refine ⟨_, construct_of_length hlen, rfl, State.nreg_initial nreg c image, State.reg_initial nreg c image, rfl, rfl, rfl,
    rfl, fun n hn => ?rom, fun n hn => ?above⟩
  case rom => simp [State.byteAt_initial, hlen, hn]
  case above => rw [State.byteAt_initial, List.getD_eq_default _ _ (hlen.trans_le hn)]

/-! ### The invariant at reset -/

theorem State.inv_initial {nreg : Nat} {c : Config} {image : List Byte} (hc : c.wf) (hpos : 1 ≤ nreg) (hle : nreg ≤ 16)
    (hlen : image.length = c.romSize) : (State.initial nreg c image).Inv where
  cfg_wf := hc
  nreg_pos := hpos.trans_eq (State.nreg_initial nreg c image).symm
  nreg_le := (State.nreg_initial nreg c image).trans_le hle
  mem_wf := Memory.ofImage_wf image 0
  mem_inside := fun cell hcell => by
    obtain ⟨-, hend, -⟩ := Memory.listed_ofImage image 0 cell hcell
    rw [Nat.zero_add, hlen] at hend
    exact hend.trans_le (romSize_le_totalSize c)
  fault_halted := fun h => absurd rfl h
  fault_of_step := nofun
  entry := fun _ => rfl

/-- Settles O10: a constructed machine had an image of the right length, and its reset state satisfies the invariant. -/
theorem constructedMachinesSatisfyTheInvariant : Obligations.ConstructedMachinesSatisfyTheInvariant := by
  intro nreg c image s hc hpos hle h
  obtain rfl := eq_initial_of_construct h
  by_cases hlen : image.length = c.romSize
  · exact State.inv_initial hc hpos hle hlen
  · rw [wrongImageLengthFailsConstruction nreg c image hlen] at h
    cases h

/-- An image of zeros lists no byte. -/
theorem Memory.ofImage_replicate_unlisted (n a : Nat) :
    Memory.ofImage (List.replicate n Memory.unlisted) a = [] := by
  induction n generalizing a with
  | zero => rfl
  | succ n ih => rw [List.replicate_succ, Memory.ofImage, if_pos rfl, ih]

theorem construct_reset : construct 4 Config.reset (List.replicate 256 0) = .next State.reset := by
  refine (construct_of_length List.length_replicate).trans ?_
  exact congrArg (fun m => Host.Outcome.next (State.reset.setMem m)) (Memory.ofImage_replicate_unlisted 256 0)

/-- Settles O11: the reset state is a constructed machine with legal parameters. -/
theorem resetSatisfiesTheInvariant : Obligations.ResetSatisfiesTheInvariant :=
  ⟨constructedMachinesSatisfyTheInvariant 4 Config.reset _ _ (by decide) (by decide) (by decide) construct_reset,
    construct_reset⟩

/-! ### No first instruction (R192) -/

/-- Settles O51: the reset state is at the entry point, where the fetch faults, and the fault leaves the rest as constructed. -/
theorem machineWithoutAFirstInstructionFaultsInItsFirstStep :
    Obligations.MachineWithoutAFirstInstructionFaultsInItsFirstStep := by
  intro nreg c image hrom hlen
  have hstep : step (State.initial nreg c image) = .next ((State.initial nreg c image).failed .outOfBounds) :=
    fetchOutsideTheRegionsRaisesOutOfBounds _ rfl rfl (.inr (.inr ⟨rfl, hrom⟩))
  exact ⟨_, _, construct_of_length hlen, hstep, ⟨rfl, nofun⟩, rfl, rfl, State.reg_initial nreg c image, rfl,
    fun _ => rfl, rfl, rfl⟩

end Sys2Proof.Machine
end

section
/-! SUPPORT. What an instruction and a step leave of each part of the state, read off `Effect` once: the
parameters, the status flags, memory, the registers. Then the rules of one step that say no more than this. -/

namespace Sys2Proof.Machine

/-- A step changes nothing, has the effect of the instruction at `pc`, or raises a fatal error before one is selected. -/
theorem step_effect_cases {s t : State} (h : step s = .next t) :
    t = s ∨ (∃ i, s.current = some i ∧ Effect i s t) ∨ ∃ f, f ≠ .invalidImageSize ∧ t = s.failed f := by
  obtain ⟨-, rfl⟩ | ⟨-, i, hc, -, he⟩ | ⟨-, -, f, rfl, hf⟩ | ⟨-, -, rfl, -⟩ := step_next_cases h
  · exact .inl rfl
  · exact .inr (.inl ⟨i, hc, he⟩)
  · exact .inr (.inr ⟨f, by rintro rfl; simp at hf, rfl⟩)
  · exact .inl rfl

/-! ### The parameters -/

theorem Effect.sameConfig {i : Instr} {s t : State} (he : Effect i s t) : sameConfig s t := by
  cases he with
  | reg a v => exact ⟨rfl, State.nreg_setReg s a v⟩
  | compare => exact ⟨rfl, rfl⟩
  | store => exact ⟨rfl, rfl⟩
  | jump => exact ⟨rfl, rfl⟩
  | advance => exact ⟨rfl, rfl⟩
  | halt => exact ⟨rfl, rfl⟩
  | failed => exact ⟨rfl, rfl⟩

theorem step_sameConfig {s t : State} (h : step s = .next t) : sameConfig s t := by
  obtain rfl | ⟨i, -, he⟩ | ⟨f, -, rfl⟩ := step_effect_cases h
  · exact ⟨rfl, rfl⟩
  · exact he.sameConfig
  · exact ⟨rfl, rfl⟩

/-! ### The status flags -/

/-- An instruction leaves the status flags, is `halt`, or fails. -/
theorem Effect.status_cases {i : Instr} {s t : State} (he : Effect i s t) :
    sameStatus s t ∨ (i = .halt ∧ t = s.setHalted) ∨ ∃ f, f ≠ .invalidImageSize ∧ t = s.failed f := by
  cases he with
  | reg => exact .inl ⟨rfl, rfl⟩
  | compare => exact .inl ⟨rfl, rfl⟩
  | store => exact .inl ⟨rfl, rfl⟩
  | jump => exact .inl ⟨rfl, rfl⟩
  | advance => exact .inl ⟨rfl, rfl⟩
  | halt hi => exact .inr (.inl ⟨hi, rfl⟩)
  | failed f hf => exact .inr (.inr ⟨f, by rintro rfl; simp at hf, rfl⟩)

/-- A step leaves the status flags, runs `halt`, or is a fatal error (R17, R166). -/
theorem step_status_cases {s t : State} (h : step s = .next t) :
    sameStatus s t ∨ (s.current = some .halt ∧ t = s.setHalted) ∨
      ∃ f, f ≠ .invalidImageSize ∧ t = s.failed f := by
  obtain rfl | ⟨i, hc, he⟩ | hfailed := step_effect_cases h
  · exact .inl ⟨rfl, rfl⟩
  · obtain hsame | ⟨rfl, ht⟩ | hfailed := he.status_cases
    · exact .inl hsame
    · exact .inr (.inl ⟨hc, ht⟩)
    · exact .inr (.inr hfailed)
  · exact .inr (.inr hfailed)

/-- Settles O21: of the three things a step can do to the status flags, only a fatal error latches a fault. -/
theorem faultsArePrecise : Obligations.FaultsArePrecise := by
  intro s t f _ hnone h hf
  obtain ⟨-, hsame⟩ | ⟨-, rfl⟩ | ⟨g, -, rfl⟩ := step_status_cases h
  · simp [hsame, hnone] at hf
  · simp [hnone] at hf
  · rw [State.fault_failed, Option.some.injEq] at hf
    rw [hf]

/-- Settles O15: of the three things a step can do to the status flags, `halt` and a fatal error set `HALTED`. -/
theorem onlyHaltAndFatalErrorsSetHalted : Obligations.OnlyHaltAndFatalErrorsSetHalted := by
  refine ⟨?constructed, ?halted, ?setsHalted, ?halt, ?fault⟩
  case constructed =>
    intro nreg c image s h
    rw [eq_initial_of_construct h]
    rfl
  case halted =>
    intro s t hhalted h
    rw [step_of_halted hhalted] at h
    cases h
    rfl
  case setsHalted =>
    intro s t hrun h ht
    obtain ⟨hsame, -⟩ | ⟨hc, -⟩ | ⟨f, -, rfl⟩ := step_status_cases h
    · exact absurd ((hsame.trans hrun).symm.trans ht) Bool.false_ne_true
    · exact .inl hc
    · exact .inr ⟨f, rfl⟩
  case halt => exact fun s hrun hc => ⟨s.setHalted, step_of_current hrun hc, rfl⟩
  case fault =>
    intro s t f hrun hnone h hf
    rw [faultsArePrecise s t f hrun hnone h hf]
    rfl

/-- Settles O42: of the three things a step can do to the status flags, only `halt` sets `HALTED` without a fault, and it
leaves what the fetch reads. -/
theorem normalEndIsAtAHalt : Obligations.NormalEndIsAtAHalt := by
  rintro s t hrun h ⟨hhalted, hfault⟩
  obtain ⟨hsame, -⟩ | ⟨hc, rfl⟩ | ⟨f, -, rfl⟩ := step_status_cases h
  · exact absurd ((hsame.trans hrun).symm.trans hhalted) Bool.false_ne_true
  · exact ⟨rfl, hc⟩
  · cases hfault

/-! ### Memory -/

/-- Memory is written by a store in RAM only. -/
theorem Effect.mem_cases {i : Instr} {s t : State} (he : Effect i s t) :
    t.mem = s.mem ∨ ∃ addr v, storeAddress s i = some addr ∧ region s.cfg addr.toNat = .ram ∧
      t.mem = Memory.writeWord s.mem addr.toNat v := by
  cases he with
  | store addr v hi hr => exact .inr ⟨addr, v, hi, hr, rfl⟩
  | reg => exact .inl rfl
  | compare => exact .inl rfl
  | jump => exact .inl rfl
  | advance => exact .inl rfl
  | halt => exact .inl rfl
  | failed => exact .inl rfl

theorem step_mem_cases {s t : State} (h : step s = .next t) :
    t.mem = s.mem ∨ ∃ i addr v, s.current = some i ∧ storeAddress s i = some addr ∧
      region s.cfg addr.toNat = .ram ∧ t.mem = Memory.writeWord s.mem addr.toNat v := by
  obtain rfl | ⟨i, hc, he⟩ | ⟨f, -, rfl⟩ := step_effect_cases h
  · exact .inl rfl
  · exact he.mem_cases.imp_right fun ⟨addr, v, hw⟩ => ⟨i, addr, v, hc, hw⟩
  · exact .inl rfl

/-- Settles O40: the one word a step can write is that of the store at `pc`, in RAM, and it changes no byte outside it. -/
theorem memoryChangesOnlyByStoresInRam : Obligations.MemoryChangesOnlyByStoresInRam := by
  intro s t n h hne
  rw [State.byteAt, State.byteAt] at hne
  obtain hmem | ⟨i, addr, v, hc, hi, hr, hmem⟩ := step_mem_cases h
  · exact absurd (by rw [hmem]) hne
  · rw [hmem, Memory.read_writeWord] at hne
    obtain ⟨hle, hlt⟩ : addr.toNat ≤ n ∧ n < addr.toNat + 4 := by
      by_contra hout
      exact hne (if_neg hout)
    obtain ⟨hrom, hend⟩ := (region_ram_iff _ _).mp hr
    exact ⟨i, addr, hc, hi, hle, hlt, hrom, hend⟩

/-! ### Registers -/

theorem Effect.destination_of_reg_ne {i : Instr} {s t : State} {r : RegIndex} (he : Effect i s t)
    (hr : t.reg r ≠ s.reg r) : i.destination = some r := by
  cases he with
  | reg a v hd =>
    have ha : r = a := by
      by_contra hne
      exact hr (State.reg_setReg_of_ne s a r v hne)
    rw [hd, ha]
  | compare => exact absurd rfl hr
  | store => exact absurd rfl hr
  | jump => exact absurd rfl hr
  | advance => exact absurd rfl hr
  | halt => exact absurd rfl hr
  | failed => exact absurd rfl hr

/-- The register an instruction writes is its `regA` (R76). -/
theorem fieldA_of_destination {i : Instr} {r : RegIndex} (h : i.destination = some r) : i.fieldA = some r := by
  cases i <;> cases h <;> rfl

/-- Settles O39: the instruction at `pc` writes its destination only, which is its `regA`. -/
theorem registersChangeOnlyThroughRegA : Obligations.RegistersChangeOnlyThroughRegA := by
  intro s t r h hr
  obtain rfl | ⟨i, hc, he⟩ | ⟨f, -, rfl⟩ := step_effect_cases h
  · exact absurd rfl hr
  · have hd := he.destination_of_reg_ne hr
    exact ⟨i, hc, hd, fieldA_of_destination hd⟩
  · exact absurd rfl hr

/-! ### The program counter (R15) -/

/-- Settles O41: the next `pc` by the way the instruction changes the state; each way belongs to the rows with one `pc` column. -/
theorem pcFollowsTheDispatchTable : Obligations.PcFollowsTheDispatchTable := by
  intro s t i hrun _ hc h ht
  obtain ⟨u, hu, he⟩ := exec_effect i s
  rw [step_of_current hrun hc, hu] at h
  cases h
  cases he with
  | reg a v hd => cases i <;> cases hd <;> exact State.toNat_pc_advance s
  | compare a b hi =>
    subst hi
    exact State.toNat_pc_advance s
  | store addr v hi => cases i <;> cases hi <;> exact State.toNat_pc_advance s
  | jump n hi => obtain rfl | ⟨rfl, hz⟩ | ⟨rfl, hz⟩ := hi <;> simp [*]
  | advance hi =>
    obtain rfl | ⟨n, ⟨rfl, hz⟩ | ⟨rfl, hz⟩⟩ := hi
    · exact State.toNat_pc_advance s
    · simp [hz]
    · simp [hz]
  | halt hi =>
    subst hi
    rfl
  | failed => cases ht

end Sys2Proof.Machine
end

section
/-! SUPPORT. Runs of any length: every step answers a next state, so a relation that steps keep holds along a run; a state that
is its own next state is where a run stays. The invariant of the machine and what no run changes. -/

namespace Sys2Proof.Machine

/-! ### A step answers (R22) -/

theorem step_answers (s : State) : ∃ t, step s = .next t := by
  have hc := step_cases s
  generalize step s = o at hc
  cases hc with
  | halted => exact ⟨s, rfl⟩
  | run i =>
    obtain ⟨t, ht, -⟩ := exec_effect i s
    exact ⟨t, ht⟩
  | failed f => exact ⟨s.failed f, rfl⟩
  | hang => exact ⟨s, rfl⟩

theorem run_answers (k : Nat) (s : State) : ∃ t, core.run k s = .next t := by
  induction k generalizing s with
  | zero => exact ⟨s, rfl⟩
  | succ k ih =>
    obtain ⟨t, ht⟩ := step_answers s
    rw [run_succ ht]
    exact ih t

/-- Settles O13: each way a step can go answers a next state, and a run is made of steps. -/
theorem everyStepAnswersANextState : Obligations.EveryStepAnswersANextState := ⟨step_answers, run_answers⟩

/-! ### What every step keeps, every run keeps -/

theorem run_induction {R : State → State → Prop} (hrefl : ∀ s, R s s)
    (htrans : ∀ {s t u}, R s t → R t u → R s u) (hstep : ∀ {s t}, step s = .next t → R s t) (k : Nat) {s t : State}
    (h : core.run k s = .next t) : R s t := by
  induction k generalizing s with
  | zero =>
    cases h
    exact hrefl _
  | succ k ih =>
    obtain ⟨u, hu⟩ := step_answers s
    rw [run_succ hu] at h
    exact htrans (hstep hu) (ih h)

/-- Settles O38: each step keeps the parameters. -/
theorem parametersNeverChange : Obligations.ParametersNeverChange :=
  fun k _ _ => run_induction (fun _ => ⟨rfl, rfl⟩)
    (fun ⟨hcfg, hnreg⟩ ⟨hcfg', hnreg'⟩ => ⟨hcfg'.trans hcfg, hnreg'.trans hnreg⟩) step_sameConfig k

/-- The parameters are the same, and so is every byte below `ROM_SIZE`. -/
def sameRom (s t : State) : Prop := t.cfg = s.cfg ∧ ∀ n, n < s.cfg.romSize → t.byteAt n = s.byteAt n

theorem sameRom.trans {s t u : State} : sameRom s t → sameRom t u → sameRom s u := by
  rintro ⟨hcfg, hrom⟩ ⟨hcfg', hrom'⟩
  exact ⟨hcfg'.trans hcfg, fun n hn => (hrom' n (hcfg ▸ hn)).trans (hrom n hn)⟩

/-- A step that changed a byte of ROM would have stored there, but stores write RAM only. -/
theorem step_sameRom {s t : State} (h : step s = .next t) : sameRom s t := by
  refine ⟨(step_sameConfig h).1, fun n hn => ?_⟩
  by_contra hne
  obtain ⟨_, addr, -, -, hle, -, hrom, -⟩ := memoryChangesOnlyByStoresInRam s t n h hne
  exact (hn.trans_le (hrom.trans hle)).false

/-- Settles O37: each step keeps ROM and the size of ROM. -/
theorem romNeverChanges : Obligations.RomNeverChanges :=
  fun k _ _ h => (run_induction (R := sameRom) (fun _ => ⟨rfl, fun _ _ => rfl⟩) sameRom.trans step_sameRom k h).2

/-! ### The invariant -/

/-- A machine of the invariant that has no first instruction is at the entry point, where the fetch fails (R192). -/
theorem State.Inv.current_eq_none {s : State} (hs : s.Inv) (hrom : s.cfg.romSize < 4) : s.current = none := by
  refine Option.eq_none_iff_forall_ne_some.mpr fun i hi => ?_
  obtain ⟨w, hf, -⟩ := (current_eq_some_iff s i).mp hi
  obtain ⟨-, hfirst, -⟩ := (fetch_ok_iff s w).mp hf
  exact hfirst ⟨hs.entry hrom, hrom⟩

theorem step_pc_of_current_eq_none {s t : State} (h : step s = .next t) (hc : s.current = none) : t.pc = s.pc := by
  obtain rfl | ⟨i, hi, -⟩ | ⟨f, -, rfl⟩ := step_effect_cases h
  · rfl
  · exact absurd (hc.symm.trans hi) nofun
  · rfl

/-- What a step leaves listed in memory: a byte that was listed, or one of a store inside memory. -/
theorem step_listed {s t : State} (h : step s = .next t) (hs : ∀ c ∈ s.mem, c.1 < s.cfg.totalSize) :
    ∀ c ∈ t.mem, c.1 < s.cfg.totalSize := by
  obtain hmem | ⟨_, addr, v, -, -, hr, hmem⟩ := step_mem_cases h
  · rwa [hmem]
  · rw [hmem]
    exact Memory.listed_writeWord hs ((region_ram_iff _ _).mp hr).2 v

theorem step_mem_wf {s t : State} (h : step s = .next t) (hs : Memory.wf s.mem) : Memory.wf t.mem := by
  obtain hmem | ⟨_, addr, v, -, -, -, hmem⟩ := step_mem_cases h
  · rwa [hmem]
  · rw [hmem]
    exact Memory.writeWord_wf hs addr.toNat v

/-- Settles O12: clause by clause, from what a step leaves of the parameters, of memory, of the status flags and, without a
first instruction, of `pc`. -/
theorem everyStepKeepsTheInvariant : Obligations.EveryStepKeepsTheInvariant := by
  intro s t hs h
  obtain ⟨hcfg, hnreg⟩ := step_sameConfig h
  have hstatus := step_status_cases h
  refine
    { cfg_wf := hcfg ▸ hs.cfg_wf
      nreg_pos := hnreg ▸ hs.nreg_pos
      nreg_le := hnreg ▸ hs.nreg_le
      mem_wf := step_mem_wf h hs.mem_wf
      mem_inside := hcfg ▸ step_listed h hs.mem_inside
      fault_halted := ?fault_halted
      fault_of_step := ?fault_of_step
      entry := ?entry }
  case fault_halted =>
    obtain ⟨hhalted, hfault⟩ | ⟨-, rfl⟩ | ⟨f, -, rfl⟩ := hstatus
    · rw [hhalted, hfault]
      exact hs.fault_halted
    · exact fun _ => rfl
    · exact fun _ => rfl
  case fault_of_step =>
    obtain ⟨-, hfault⟩ | ⟨-, rfl⟩ | ⟨f, hf, rfl⟩ := hstatus
    · rw [hfault]
      exact hs.fault_of_step
    · exact hs.fault_of_step
    · exact fun he => hf (Option.some.inj he)
  case entry =>
    intro hrom
    rw [hcfg] at hrom
    exact (step_pc_of_current_eq_none h (hs.current_eq_none hrom)).trans (hs.entry hrom)

/-! ### States that are their own next state -/

theorem run_of_step_self {s : State} (h : step s = .next s) (k : Nat) : core.run k s = .next s := by
  induction k with
  | zero => rfl
  | succ k ih => exact (run_succ h k).trans ih

/-- Settles O22: a latched fault goes with `HALTED`, and a halted machine is its own next state. -/
theorem latchedFaultNeverChanges : Obligations.LatchedFaultNeverChanges :=
  fun _ _ hs hf => run_of_step_self (step_of_halted (hs.fault_halted (by simp [hf])))

/-- Settles O19: under the policy `hang` the state is its own next state. -/
theorem unrecognizedOpcodeHangsUnderPolicyHang : Obligations.UnrecognizedOpcodeHangsUnderPolicyHang := by
  intro s w hrun hf hw hpolicy
  refine run_of_step_self ?_
  rw [step_of_unrecognized hrun hf hw, unrecognized, hpolicy]

/-- A jump to the address it stands at writes the `pc` that is there. -/
theorem step_of_jump_to_itself {s : State} {n : Imm} (hrun : s.running) (hc : s.current = some (.jump n))
    (hpc : s.pc.toNat = n.toNat) : step s = .next s := by
  have htarget : imm32 n = s.pc := BitVec.eq_of_toNat_eq ((toNat_imm32 n).trans hpc.symm)
  have hexec : exec (.jump n) s = .next (s.setPc (imm32 n)) := jumpWhen_eq true n s
  rw [step_of_current hrun hc, hexec, htarget]
  rfl

/-- Settles O31: the state is its own next state, and it is running, so no run of it has ended. -/
theorem jumpToItselfNeitherHaltsNorFaults : Obligations.JumpToItselfNeitherHaltsNorFaults := by
  intro s n hrun hc hpc k
  have hrunSelf := run_of_step_self (step_of_jump_to_itself hrun hc hpc)
  refine ⟨hrunSelf k, fun j _ t ht hend => ?_⟩
  rw [hrunSelf j] at ht
  cases ht
  exact Bool.false_ne_true (hrun.symm.trans hend.1)

end Sys2Proof.Machine
end

section
/-! SUPPORT. The shifts and `halt` (42_logic_shift.md, 45_system.md). -/

namespace Sys2Proof.Machine

/-! ### Shifts (R124 to R126) -/

theorem toNat_shiftRight_imm (x : Word) (n : Imm) : (x >>> (imm32 n).toNat).toNat = x.toNat / 2 ^ n.toNat := by
  rw [toNat_imm32, BitVec.toNat_ushiftRight, Nat.shiftRight_eq_div_pow]

theorem toNat_shiftLeft_imm (x : Word) (n : Imm) :
    (x <<< (imm32 n).toNat).toNat = x.toNat * 2 ^ n.toNat % 2 ^ 32 := by
  rw [toNat_imm32, BitVec.toNat_shiftLeft, Nat.shiftLeft_eq]

/-- Settles O28: both instructions are updates of `x[A]` by a shift, which from 32 on leaves no bit of the word. -/
theorem shiftsAreLogicalByTheWholeImmediate : Obligations.ShiftsAreLogicalByTheWholeImmediate := by
  refine ⟨registerImmediateRule_of_updateReg (fun _ => rfl) (fun _ _ _ => rfl)
      fun x n => ⟨toNat_shiftRight_imm x n, fun hn => ?right⟩,
    registerImmediateRule_of_updateReg (fun _ => rfl) (fun _ _ _ => rfl)
      fun x n => ⟨toNat_shiftLeft_imm x n, fun hn => ?left⟩⟩
  case right => exact BitVec.ushiftRight_eq_zero (by rwa [toNat_imm32])
  case left => exact BitVec.shiftLeft_eq_zero (by rwa [toNat_imm32])

/-! ### `halt` (R150) -/

theorem exec_halt (s : State) : exec .halt s = .next s.setHalted := finish_ok s s.setHalted

/-- Settles O34: the next state is the old one with `HALTED` set. -/
theorem haltSetsHaltedOnly : Obligations.HaltSetsHaltedOnly :=
  ⟨fun _ hwf a b n => decodeWord_encodeFields_opcodeOf hwf .halt a b n, fun s => ⟨s.setHalted, exec_halt s, rfl, rfl, rfl,
    fun _ => rfl, rfl, fun _ => rfl, rfl, rfl⟩⟩

end Sys2Proof.Machine
end

section
/-! SUPPORT. Loads and stores (44_load_store.md): what each shape does with existing registers, by the region of its address, and
with a missing one; then the next fetch after a store over the next instruction. -/

namespace Sys2Proof.Machine

/-! ### The four ways a data access can end (R46, R47) -/

theorem memRead_of_not_region {s : State} {a : Word}
    (h : region s.cfg a.toNat = .outside ∨ region s.cfg a.toNat = .straddle) : memRead s a = .error .outOfBounds := by
  obtain h | h := h <;> simp [memRead, h]

theorem memWrite_of_outside {s : State} {a : Word} (h : region s.cfg a.toNat = .outside) (v : Word) :
    memWrite s a v = .error .outOfBounds := by
  simp [memWrite, h]

theorem memWrite_of_readOnly {s : State} {a : Word}
    (h : region s.cfg a.toNat = .rom ∨ region s.cfg a.toNat = .straddle) (v : Word) :
    memWrite s a v = .error .readOnlyViolation := by
  obtain h | h := h <;> simp [memWrite, h]

theorem stopsWith_of_eq {f : FatalError} {s : State} {o : Host.Outcome State Fault Refusal}
    (h : o = .next (s.failed f)) : stopsWith f s o :=
  h ▸ stopsWith_failed f s

/-! ### The two shapes (R140 to R144) -/

section
variable {a : RegIndex} {o : Operand} {s : State}

theorem loadReg_of_memRead (hused : ∀ r ∈ a :: o.used, r.toNat < s.nreg) {v : Word} (h : memRead s (o.word s) = .ok v) :
    loadReg a o s = .next (s.setReg a v).advance := by
  rw [loadReg_eq, if_pos hused, h]

theorem loadReg_of_memRead_error (hused : ∀ r ∈ a :: o.used, r.toNat < s.nreg) {f : FatalError}
    (h : memRead s (o.word s) = .error f) : loadReg a o s = .next (s.failed f) := by
  rw [loadReg_eq, if_pos hused, h]

theorem loadReg_of_missing (hmissing : ¬ ∀ r ∈ a :: o.used, r.toNat < s.nreg) :
    loadReg a o s = .next (s.failed .invalidRegisterIndex) := by
  rw [loadReg_eq, if_neg hmissing]

theorem storeReg_of_memWrite (hused : ∀ r ∈ a :: o.used, r.toNat < s.nreg) {t : State}
    (h : memWrite s (o.word s) (s.reg a) = .ok t) : storeReg a o s = .next t.advance := by
  rw [storeReg_eq, if_pos hused, h]

theorem storeReg_of_memWrite_error (hused : ∀ r ∈ a :: o.used, r.toNat < s.nreg) {f : FatalError}
    (h : memWrite s (o.word s) (s.reg a) = .error f) : storeReg a o s = .next (s.failed f) := by
  rw [storeReg_eq, if_pos hused, h]

theorem storeReg_of_missing (hmissing : ¬ ∀ r ∈ a :: o.used, r.toNat < s.nreg) :
    storeReg a o s = .next (s.failed .invalidRegisterIndex) := by
  rw [storeReg_eq, if_neg hmissing]

theorem loadRule_of_loadReg {i : Instr} (hexec : exec i s = loadReg a o s)
    (hused : ∀ r ∈ a :: o.used, r.toNat < s.nreg) : loadRule i a (o.word s) s := by
  refine ⟨fun hregion => ?inside, fun hregion => ?elsewhere⟩
  case inside =>
    refine ⟨_, hexec.trans (loadReg_of_memRead hused (memRead_of_region hregion)), ?word,
      fun r hr => State.reg_setReg_of_ne s a r _ hr, State.toNat_pc_advance _, rfl, ⟨rfl, rfl⟩, fun _ => rfl, rfl,
      State.nreg_setReg ..⟩
    rw [State.reg_advance, State.reg_setReg_self s a _ (hused a List.mem_cons_self)]
    exact toNat_wordOfBytes ..
  case elsewhere =>
    exact stopsWith_of_eq (hexec.trans (loadReg_of_memRead_error hused (memRead_of_not_region hregion)))

theorem storeRule_of_storeReg {i : Instr} (hexec : exec i s = storeReg a o s)
    (hused : ∀ r ∈ a :: o.used, r.toNat < s.nreg) : storeRule i (s.reg a) (o.word s) s := by
  refine ⟨fun hregion => ?ram, fun hregion => ?outside, fun hregion => ?readOnly⟩
  case ram =>
    refine ⟨_, hexec.trans (storeReg_of_memWrite hused (memWrite_of_ram hregion _)), fun k hk => ?bytes, fun n hn => ?frame,
      fun _ => rfl, State.toNat_pc_advance _, rfl, ⟨rfl, rfl⟩, rfl, rfl⟩
    case bytes =>
      rw [State.byteAt_advance, State.byteAt_setMem, Memory.read_writeWord, if_pos (by omega), Nat.add_sub_cancel_left,
        Word.toNat_byte]
    case frame =>
      rw [State.byteAt_advance, State.byteAt_setMem, Memory.read_writeWord, if_neg (by omega)]
      rfl
  case outside =>
    exact stopsWith_of_eq (hexec.trans (storeReg_of_memWrite_error hused (memWrite_of_outside hregion _)))
  case readOnly =>
    exact stopsWith_of_eq (hexec.trans (storeReg_of_memWrite_error hused (memWrite_of_readOnly hregion _)))

end

/-! ### The rules -/

theorem used_reg_iff (s : State) (a b : RegIndex) :
    (∀ r ∈ a :: (Operand.reg b).used, r.toNat < s.nreg) ↔ a.toNat < s.nreg ∧ b.toNat < s.nreg := by
  simp [Operand.used]

theorem used_imm_iff (s : State) (a : RegIndex) (n : Imm) :
    (∀ r ∈ a :: (Operand.imm n).used, r.toNat < s.nreg) ↔ a.toNat < s.nreg := by
  simp [Operand.used]

theorem not_used_reg {s : State} {a b : RegIndex} (h : s.nreg ≤ a.toNat ∨ s.nreg ≤ b.toNat) :
    ¬ ∀ r ∈ a :: (Operand.reg b).used, r.toNat < s.nreg := by
  rw [used_reg_iff]
  omega

theorem not_used_imm {s : State} {a : RegIndex} (n : Imm) (h : s.nreg ≤ a.toNat) :
    ¬ ∀ r ∈ a :: (Operand.imm n).used, r.toNat < s.nreg := by
  rw [used_imm_iff]
  exact h.not_gt

/-- Settles O32: both loads are the one shape, from an address in `x[B]` and from the immediate. -/
theorem loadsReadAWordOrRaiseOutOfBounds : Obligations.LoadsReadAWordOrRaiseOutOfBounds := by
  refine ⟨?indirect, ?indirectMissing, ?immediate, ?immediateMissing⟩
  case indirect => exact fun s a b ha hb => loadRule_of_loadReg rfl ((used_reg_iff s a b).mpr ⟨ha, hb⟩)
  case indirectMissing => exact fun s a b h => stopsWith_of_eq (loadReg_of_missing (not_used_reg h))
  case immediate => exact fun s a n ha => loadRule_of_loadReg rfl ((used_imm_iff s a n).mpr ha)
  case immediateMissing => exact fun s a n h => stopsWith_of_eq (loadReg_of_missing (not_used_imm n h))

/-- Settles O33: both stores are the one shape, to an address in `x[B]` and to the immediate. -/
theorem storesWriteAWordToRamOnly : Obligations.StoresWriteAWordToRamOnly := by
  refine ⟨?indirect, ?indirectMissing, ?immediate, ?immediateMissing⟩
  case indirect => exact fun s a b ha hb => storeRule_of_storeReg rfl ((used_reg_iff s a b).mpr ⟨ha, hb⟩)
  case indirectMissing => exact fun s a b h => stopsWith_of_eq (storeReg_of_missing (not_used_reg h))
  case immediate => exact fun s a n ha => storeRule_of_storeReg rfl ((used_imm_iff s a n).mpr ha)
  case immediateMissing => exact fun s a n h => stopsWith_of_eq (storeReg_of_missing (not_used_imm n h))

/-! ### Fetching what was stored (20_memory.md section 6) -/

/-- The instruction after an aligned `pc` is not at the entry point of a machine of the invariant that has no first
instruction: such a machine is still at `pc` 0 (log 28). -/
theorem State.Inv.next_not_noFirstInstruction {s : State} (hs : s.Inv) :
    ¬ (s.pc + 4 = 0 ∧ s.cfg.romSize < 4) := by
  rintro ⟨hpc, hrom⟩
  rw [hs.entry hrom] at hpc
  exact absurd hpc (by decide)

theorem fetch_after_store_to_next {s : State} (hs : s.Inv) (hpc : s.pc.toNat % 4 = 0)
    (hram : region s.cfg (s.pc + 4).toNat = .ram) (v : Word) :
    fetch (s.setMem (Memory.writeWord s.mem (s.pc + 4).toNat v)).advance = .ok v := by
  refine (fetch_ok_iff _ v).mpr ⟨?aligned, hs.next_not_noFirstInstruction, .inr hram,
    Memory.readWord_writeWord_self s.mem _ v⟩
  rw [State.toNat_pc_advance, State.pc_setMem]
  omega

theorem storeReg_to_next {s : State} {a : RegIndex} {o : Operand} (hs : s.Inv)
    (hused : ∀ r ∈ a :: o.used, r.toNat < s.nreg) (hpc : s.pc.toNat % 4 = 0)
    (hram : region s.cfg (s.pc + 4).toNat = .ram) (ho : o.word s = s.pc + 4) :
    ∃ t, storeReg a o s = .next t ∧ fetch t = .ok (s.reg a) :=
  ⟨_, storeReg_of_memWrite hused (ho ▸ memWrite_of_ram hram _), fetch_after_store_to_next hs hpc hram _⟩

/-- Settles O48: both stores are the one shape, and its next state fetches the stored word. -/
theorem storeOverTheNextInstructionIsFetched : Obligations.StoreOverTheNextInstructionIsFetched :=
  fun s a hs ha hpc hram =>
    ⟨fun b hb => storeReg_to_next (o := .reg b) hs ((used_reg_iff s a b).mpr ⟨ha, hb⟩) hpc hram,
      fun n => storeReg_to_next (o := .imm n) hs ((used_imm_iff s a n).mpr ha) hpc hram⟩

end Sys2Proof.Machine
end

section
/-! SUPPORT. The fatal errors of each instruction after its fetch (60_exceptions.md sections 1 and 2): every instruction checks its
registers and then completes, loads or stores, and each of these can fail in the ways of its data access only. -/

namespace Sys2Proof.Machine

/-! ### The fatal errors of an outcome -/

section
variable {s t : State} {e f : FatalError}

theorem next_failed_eq_iff :
    (.next (s.failed e) : Host.Outcome State Fault Refusal) = .next (s.failed f) ↔ f = e := by
  constructor
  · intro h
    exact (Option.some.inj (congrArg State.fault (Host.Outcome.next.inj h))).symm
  · rintro rfl
    rfl

theorem next_ne_failed (h : t.fault = none) :
    (.next t : Host.Outcome State Fault Refusal) ≠ .next (s.failed f) := by
  intro he
  exact absurd (h.symm.trans (congrArg State.fault (Host.Outcome.next.inj he))) nofun

end

/-! ### The fatal errors of the data access (R46, R47) -/

/-- `f` is the fatal error of the data access of `i` (60_exceptions.md section 1). -/
def AccessFault (i : Instr) (s : State) (f : FatalError) : Prop :=
  (∃ addr, loadAddress s i = some addr ∧ f = .outOfBounds ∧
    (region s.cfg addr.toNat = .outside ∨ region s.cfg addr.toNat = .straddle)) ∨
  ∃ addr, storeAddress s i = some addr ∧
    ((f = .outOfBounds ∧ region s.cfg addr.toNat = .outside) ∨
      (f = .readOnlyViolation ∧ (region s.cfg addr.toNat = .rom ∨ region s.cfg addr.toNat = .straddle)))

section
variable {i : Instr} {s : State} {f : FatalError} {addr : Word}

theorem not_accessFault (hl : loadAddress s i = none) (hst : storeAddress s i = none) : ¬ AccessFault i s f := by
  simp [AccessFault, hl, hst]

theorem accessFault_of_load (hl : loadAddress s i = some addr) (hst : storeAddress s i = none) :
    AccessFault i s f ↔
      f = .outOfBounds ∧ (region s.cfg addr.toNat = .outside ∨ region s.cfg addr.toNat = .straddle) := by
  simp [AccessFault, hl, hst]

theorem accessFault_of_store (hl : loadAddress s i = none) (hst : storeAddress s i = some addr) :
    AccessFault i s f ↔ (f = .outOfBounds ∧ region s.cfg addr.toNat = .outside) ∨
      (f = .readOnlyViolation ∧ (region s.cfg addr.toNat = .rom ∨ region s.cfg addr.toNat = .straddle)) := by
  simp [AccessFault, hl, hst]

end

/-! ### The fatal errors of an instruction: its registers first (R22 S5, D11) -/

/-- Every used register exists (R79). -/
abbrev RegsExist (i : Instr) (s : State) : Prop := ∀ r ∈ i.usedRegs, r.toNat < s.nreg

theorem wf_iff_regsExist (i : Instr) (s : State) : i.wf s.nreg = true ↔ RegsExist i s := by
  simp [Instr.wf]

/-- Executing `i` is the fatal-error sequence with `f` exactly when a used register is missing and `f` says so, or all exist
and `f` is the fatal error of the data access. -/
def FaultRule (i : Instr) (s : State) (f : FatalError) : Prop :=
  exec i s = .next (s.failed f) ↔
    (¬ RegsExist i s ∧ f = .invalidRegisterIndex) ∨ (RegsExist i s ∧ AccessFault i s f)

section
variable {i : Instr} {s : State} {f : FatalError}

theorem faultRule_of_missing (h : ¬ RegsExist i s) (hexec : exec i s = .next (s.failed .invalidRegisterIndex)) :
    FaultRule i s f := by
  rw [FaultRule, hexec, next_failed_eq_iff]
  simp [h]

theorem faultRule_of_exist (h : RegsExist i s) (haccess : exec i s = .next (s.failed f) ↔ AccessFault i s f) :
    FaultRule i s f :=
  haccess.trans ((or_iff_right fun hmissing => hmissing.1 h).trans (and_iff_right h)).symm

/-- An instruction without a data access: once its registers exist it completes. -/
theorem faultRule_of_completes {t : State} (hl : loadAddress s i = none) (hst : storeAddress s i = none)
    (hexec : exec i s = if RegsExist i s then .next t else .next (s.failed .invalidRegisterIndex))
    (ht : t.fault = none) : FaultRule i s f := by
  by_cases hregs : RegsExist i s
  · rw [if_pos hregs] at hexec
    exact faultRule_of_exist hregs (iff_of_false (hexec ▸ next_ne_failed ht) (not_accessFault hl hst))
  · exact faultRule_of_missing hregs (hexec.trans (if_neg hregs))

theorem faultRule_of_loadReg {a : RegIndex} {o : Operand} (hnone : s.fault = none) (hexec : exec i s = loadReg a o s)
    (hused : i.usedRegs = a :: o.used) (hl : loadAddress s i = some (o.word s)) (hst : storeAddress s i = none) :
    FaultRule i s f := by
  by_cases hregs : RegsExist i s
  · refine faultRule_of_exist hregs ?_
    have hregs' : ∀ r ∈ a :: o.used, r.toNat < s.nreg := hused ▸ hregs
    rw [accessFault_of_load hl hst, hexec]
    obtain ⟨hin, hread⟩ | ⟨hout, hread⟩ := memRead_cases s (o.word s)
    · rw [loadReg_of_memRead hregs' hread]
      refine iff_of_false (next_ne_failed hnone) ?_
      obtain hr | hr := hin <;> simp [hr]
    · rw [loadReg_of_memRead_error hregs' hread, next_failed_eq_iff]
      exact (and_iff_left hout).symm
  · exact faultRule_of_missing hregs (hexec.trans (loadReg_of_missing (hused ▸ hregs)))

theorem faultRule_of_storeReg {a : RegIndex} {o : Operand} (hnone : s.fault = none) (hexec : exec i s = storeReg a o s)
    (hused : i.usedRegs = a :: o.used) (hl : loadAddress s i = none) (hst : storeAddress s i = some (o.word s)) :
    FaultRule i s f := by
  by_cases hregs : RegsExist i s
  · refine faultRule_of_exist hregs ?_
    have hregs' : ∀ r ∈ a :: o.used, r.toNat < s.nreg := hused ▸ hregs
    rw [accessFault_of_store hl hst, hexec]
    obtain ⟨hr, hwrite⟩ | ⟨hr, hwrite⟩ | ⟨hr, hwrite⟩ := memWrite_cases s (o.word s) (s.reg a)
    · rw [storeReg_of_memWrite hregs' hwrite]
      exact iff_of_false (next_ne_failed hnone) (by simp [hr])
    · rw [storeReg_of_memWrite_error hregs' hwrite, next_failed_eq_iff]
      simp [hr]
    · rw [storeReg_of_memWrite_error hregs' hwrite, next_failed_eq_iff]
      obtain hr | hr := hr <;> simp [hr]
  · exact faultRule_of_missing hregs (hexec.trans (storeReg_of_missing (hused ▸ hregs)))

end

/-- Each instruction is one of the shapes, over its own operands. -/
theorem exec_faultRule (i : Instr) (s : State) (f : FatalError) (hnone : s.fault = none) : FaultRule i s f := by
  cases i with
  | moveRegister a b => exact faultRule_of_completes rfl rfl (assignReg_eq a (.reg b) s) hnone
  | moveImmediate a n => exact faultRule_of_completes rfl rfl (assignReg_eq a (.imm n) s) hnone
  | addRegister a b => exact faultRule_of_completes rfl rfl (updateReg_eq _ a (.reg b) s) hnone
  | addImmediate a n => exact faultRule_of_completes rfl rfl (updateReg_eq _ a (.imm n) s) hnone
  | subRegister a b => exact faultRule_of_completes rfl rfl (updateReg_eq _ a (.reg b) s) hnone
  | subImmediate a n => exact faultRule_of_completes rfl rfl (updateReg_eq _ a (.imm n) s) hnone
  | andRegister a b => exact faultRule_of_completes rfl rfl (updateReg_eq _ a (.reg b) s) hnone
  | andImmediate a n => exact faultRule_of_completes rfl rfl (updateReg_eq _ a (.imm n) s) hnone
  | orRegister a b => exact faultRule_of_completes rfl rfl (updateReg_eq _ a (.reg b) s) hnone
  | orImmediate a n => exact faultRule_of_completes rfl rfl (updateReg_eq _ a (.imm n) s) hnone
  | shiftRightImmediate a n => exact faultRule_of_completes rfl rfl (updateReg_eq _ a (.imm n) s) hnone
  | shiftLeftImmediate a n => exact faultRule_of_completes rfl rfl (updateReg_eq _ a (.imm n) s) hnone
  | compare a b =>
    have hregs : (a.toNat < s.nreg ∧ b.toNat < s.nreg) ↔ RegsExist (.compare a b) s := (used_reg_iff s a b).symm
    exact faultRule_of_completes rfl rfl ((compareRegs_eq a b s).trans (if_congr hregs rfl rfl)) hnone
  | jump n => exact faultRule_of_completes rfl rfl (if_pos nofun).symm hnone
  | jumpIfZero n =>
    exact faultRule_of_completes rfl rfl ((jumpWhen_eq s.zf n s).trans (if_pos nofun).symm) (by cases s.zf <;> exact hnone)
  | jumpIfNotZero n =>
    exact faultRule_of_completes rfl rfl ((jumpWhen_eq (!s.zf) n s).trans (if_pos nofun).symm)
      (by cases s.zf <;> exact hnone)
  | loadRegisterIndirect a b => exact faultRule_of_loadReg (o := .reg b) hnone rfl rfl rfl rfl
  | loadImmediateAddress a n => exact faultRule_of_loadReg (o := .imm n) hnone rfl rfl rfl rfl
  | storeRegisterIndirect a b => exact faultRule_of_storeReg (o := .reg b) hnone rfl rfl rfl rfl
  | storeImmediateAddress a n => exact faultRule_of_storeReg (o := .imm n) hnone rfl rfl rfl rfl
  | halt => exact faultRule_of_completes rfl rfl ((exec_halt s).trans (if_pos nofun).symm) hnone
  | noOp => exact faultRule_of_completes rfl rfl ((exec_noOp s).trans (if_pos nofun).symm) hnone

/-- Settles O20: the rule of each instruction, with the existence of its registers as the well-formedness of R79. -/
theorem faultsOfEachInstruction : Obligations.FaultsOfEachInstruction := by
  intro i s f _ hnone
  rw [← Bool.not_eq_true, wf_iff_regsExist, ← and_or_left]
  exact exec_faultRule i s f hnone

end Sys2Proof.Machine
end

section
/-! SUPPORT. Execution does not look at the opcode values (30_encoding.md section 3): with `OPMAP` replaced, each shape of
instruction answers the same next state with `OPMAP` replaced. -/

namespace Sys2Proof.Machine

@[simp] theorem Operand.word_setOpmap (s : State) (om : OpMap) (o : Operand) : o.word (s.setOpmap om) = o.word s := by
  cases o <;> rfl

/-- Regions depend on the sizes alone (R44). -/
theorem region_setOpmap (s : State) (om : OpMap) (n : Nat) : region (s.setOpmap om).cfg n = region s.cfg n := rfl

@[simp] theorem memRead_setOpmap (s : State) (om : OpMap) (a : Word) : memRead (s.setOpmap om) a = memRead s a := rfl

theorem memWrite_setOpmap (s : State) (om : OpMap) (a v : Word) :
    memWrite (s.setOpmap om) a v = (memWrite s a v).map (fun t => t.setOpmap om) := by
  rw [memWrite, memWrite, region_setOpmap]
  cases region s.cfg a.toNat <;> rfl

/-- An operation answers the same with another `OPMAP`. -/
def CommutesWithSetOpmap (op : State → Host.Outcome State Fault Refusal) : Prop :=
  ∀ (s t : State) (om : OpMap), op s = .next t → op (s.setOpmap om) = .next (t.setOpmap om)

theorem updateReg_commutesWithSetOpmap (g : Word → Word → Word) (a : RegIndex) (o : Operand) :
    CommutesWithSetOpmap (updateReg g a o) := by
  intro s t om h
  rw [updateReg_eq] at h ⊢
  rw [Operand.word_setOpmap]
  split at h <;> cases h
  case isTrue hused => exact if_pos hused
  case isFalse hused => exact if_neg hused

theorem assignReg_commutesWithSetOpmap (a : RegIndex) (o : Operand) : CommutesWithSetOpmap (assignReg a o) := by
  intro s t om h
  rw [assignReg_eq_updateReg] at h ⊢
  exact updateReg_commutesWithSetOpmap _ a o s t om h

theorem loadReg_commutesWithSetOpmap (a : RegIndex) (o : Operand) : CommutesWithSetOpmap (loadReg a o) := by
  intro s t om h
  rw [loadReg_eq] at h ⊢
  rw [Operand.word_setOpmap, memRead_setOpmap]
  split at h
  case isTrue hused =>
    refine (if_pos hused).trans ?_
    cases hread : memRead s (o.word s) <;> rw [hread] at h <;> cases h <;> rfl
  case isFalse hused =>
    cases h
    exact if_neg hused

theorem storeReg_commutesWithSetOpmap (a : RegIndex) (o : Operand) : CommutesWithSetOpmap (storeReg a o) := by
  intro s t om h
  rw [storeReg_eq] at h ⊢
  rw [Operand.word_setOpmap, State.reg_setOpmap, memWrite_setOpmap]
  split at h
  case isTrue hused =>
    refine (if_pos hused).trans ?_
    cases hwrite : memWrite s (o.word s) (s.reg a) <;> rw [hwrite] at h <;> cases h <;> rfl
  case isFalse hused =>
    cases h
    exact if_neg hused

theorem compareRegs_commutesWithSetOpmap (a b : RegIndex) : CommutesWithSetOpmap (compareRegs a b) := by
  intro s t om h
  rw [compareRegs_eq] at h ⊢
  split at h <;> cases h
  case isTrue hused => exact if_pos hused
  case isFalse hused => exact if_neg hused

theorem jumpWhen_setOpmap {s t : State} {taken : Bool} {n : Imm} (om : OpMap) (h : jumpWhen taken n s = .next t) :
    jumpWhen taken n (s.setOpmap om) = .next (t.setOpmap om) := by
  cases h
  cases taken <;> rfl

theorem exec_commutesWithSetOpmap (i : Instr) : CommutesWithSetOpmap (exec i) := by
  cases i with
  | moveRegister a b => exact assignReg_commutesWithSetOpmap a (.reg b)
  | moveImmediate a n => exact assignReg_commutesWithSetOpmap a (.imm n)
  | addRegister a b => exact updateReg_commutesWithSetOpmap _ a (.reg b)
  | addImmediate a n => exact updateReg_commutesWithSetOpmap _ a (.imm n)
  | subRegister a b => exact updateReg_commutesWithSetOpmap _ a (.reg b)
  | subImmediate a n => exact updateReg_commutesWithSetOpmap _ a (.imm n)
  | andRegister a b => exact updateReg_commutesWithSetOpmap _ a (.reg b)
  | andImmediate a n => exact updateReg_commutesWithSetOpmap _ a (.imm n)
  | orRegister a b => exact updateReg_commutesWithSetOpmap _ a (.reg b)
  | orImmediate a n => exact updateReg_commutesWithSetOpmap _ a (.imm n)
  | shiftRightImmediate a n => exact updateReg_commutesWithSetOpmap _ a (.imm n)
  | shiftLeftImmediate a n => exact updateReg_commutesWithSetOpmap _ a (.imm n)
  | compare a b => exact compareRegs_commutesWithSetOpmap a b
  | jump n => exact fun s t om h => jumpWhen_setOpmap om h
  | jumpIfZero n => exact fun s t om h => jumpWhen_setOpmap om h
  | jumpIfNotZero n => exact fun s t om h => jumpWhen_setOpmap om h
  | loadRegisterIndirect a b => exact loadReg_commutesWithSetOpmap a (.reg b)
  | loadImmediateAddress a n => exact loadReg_commutesWithSetOpmap a (.imm n)
  | storeRegisterIndirect a b => exact storeReg_commutesWithSetOpmap a (.reg b)
  | storeImmediateAddress a n => exact storeReg_commutesWithSetOpmap a (.imm n)
  | halt => exact fun s t om h => by cases h; rfl
  | noOp => exact fun s t om h => by cases h; rfl

/-- Settles O43: no shape of instruction looks at `OPMAP`. -/
theorem opcodeValuesDoNotMatterToExecution : Obligations.OpcodeValuesDoNotMatterToExecution :=
  exec_commutesWithSetOpmap

end Sys2Proof.Machine
end
